-- ==== Sys2Proof/Word.lean ====
section
/-! DEFINITION. The word types of the UM core (00_scope.md R5, R7): every register, memory word, segment id, offset,
length and the program counter is an unsigned 32-bit value; the console carries 8-bit bytes. -/

namespace Sys2Proof

/-- A 32-bit word (`XLEN` = 32, R5). -/
abbrev Word := BitVec 32

/-- A console or program-file byte (10_state.md R30, 20_memory.md R67). -/
abbrev Byte := BitVec 8

/-- A register index, 0 to 7 (`NREG` = 8, R5; 10_state.md R21: no other index can be formed). -/
abbrev RegIdx := Fin 8

/-- The load-immediate literal (`IMM_W` = 25, R5). -/
abbrev Imm := BitVec 25

end Sys2Proof
end

