-- ==== Sys2Proof/Config.lean ====
section
/-! DEFINITION. What is fixed for the machine (00_scope.md R5, R6) and the one value the spec leaves open that is no
data of the state (`EXIT_FATAL`). -/

namespace Sys2Proof

/-- `PC_RESET` (R6, D3): the program counter after reset. -/
def Config.pcReset : Word := 0

/-- What a word of a segment reads as when nothing has been written there since the segment was made
(20_memory.md R51, R58). -/
def Config.freshWord : Word := 0

/-- How many segment ids exist: an id fits in 32 bits (20_memory.md R65, D15). -/
def Config.maxSegments : Nat := 4294967296

/-- `PROG_LEN` is below this bound (R6, D15). -/
def Config.progLenBound : Nat := 4294967296

/-- What IN writes at end of stream: all ones (42_console.md R161). -/
def Config.eosWord : Word := 0xFFFFFFFF

/-- The free part of `EXIT_FATAL` (log 13): no body, so no proof can see its value. -/
opaque Config.exitFatalPred : Nat

/-- `EXIT_FATAL` (R6, 60_exceptions.md R204, D13): the exit status of a fatal stop, open but not 0. -/
def Config.exitFatal : Nat := Config.exitFatalPred + 1

end Sys2Proof
end

