-- ==== Sys2Proof/Syntax.lean ====
section
/-! DEFINITION. The instructions: one constructor per row of spec/opcode_table.json (30_encoding.md R96). A
constructor holds the fields its instruction uses and no other (R101; 10_state.md R22). -/

namespace Sys2Proof

/-- The sixteen rows of the opcode table. `inp` is the row IN (`in` is a word of Lean). -/
inductive Instr where
  /-- CMOV rA, rB, rC (40_alu.md R120). -/
  | cmov (a b c : RegIdx)
  /-- SLOAD rA, rB, rC (41_segment.md R140). -/
  | sload (a b c : RegIdx)
  /-- SSTORE rA, rB, rC (41_segment.md R141). -/
  | sstore (a b c : RegIdx)
  /-- ADD rA, rB, rC (40_alu.md R121). -/
  | add (a b c : RegIdx)
  /-- MUL rA, rB, rC (40_alu.md R122). -/
  | mul (a b c : RegIdx)
  /-- DIV rA, rB, rC (40_alu.md R123). -/
  | div (a b c : RegIdx)
  /-- NAND rA, rB, rC (40_alu.md R124). -/
  | nand (a b c : RegIdx)
  /-- HALT (43_control.md R170). -/
  | halt
  /-- MAP rB, rC (41_segment.md R142). -/
  | map (b c : RegIdx)
  /-- UNMAP rC (41_segment.md R143). -/
  | unmap (c : RegIdx)
  /-- OUT rC (42_console.md R160). -/
  | out (c : RegIdx)
  /-- IN rC (42_console.md R161). -/
  | inp (c : RegIdx)
  /-- LOADPROG rB, rC (43_control.md R172). -/
  | loadprog (b c : RegIdx)
  /-- LOADIMM rA, imm (40_alu.md R125). -/
  | loadimm (a : RegIdx) (imm : Imm)
  /-- The invalid opcode 14 (43_control.md R174). -/
  | invalid14
  /-- The invalid opcode 15 (43_control.md R174). -/
  | invalid15
  deriving DecidableEq, Repr

/-- The opcode value of each row (30_encoding.md R96, by D1; log 19). -/
def Instr.opcode : Instr → Nat
  | .cmov _ _ _ => 0
  | .sload _ _ _ => 1
  | .sstore _ _ _ => 2
  | .add _ _ _ => 3
  | .mul _ _ _ => 4
  | .div _ _ _ => 5
  | .nand _ _ _ => 6
  | .halt => 7
  | .map _ _ => 8
  | .unmap _ => 9
  | .out _ => 10
  | .inp _ => 11
  | .loadprog _ _ => 12
  | .loadimm _ _ => 13
  | .invalid14 => 14
  | .invalid15 => 15

end Sys2Proof
end

