-- ==== Sys2Proof/WellFormed.lean ====
section
/-! DEFINITION. The checks on what the machine is given: which rows are instructions at all, and what the host may
hand over as a program. Register indices and the literal need no check: their types hold 3 and 25 bits
(10_state.md R21, 30_encoding.md R95). -/

namespace Sys2Proof

/-- The row is one of the fourteen instructions: "values 0-13 valid, 14-15 invalid" (30_encoding.md R92, R98). -/
def Instr.wellFormed : Instr → Bool
  | .cmov _ _ _ => true
  | .sload _ _ _ => true
  | .sstore _ _ _ => true
  | .add _ _ _ => true
  | .mul _ _ _ => true
  | .div _ _ _ => true
  | .nand _ _ _ => true
  | .halt => true
  | .map _ _ => true
  | .unmap _ => true
  | .out _ => true
  | .inp _ => true
  | .loadprog _ _ => true
  | .loadimm _ _ => true
  | .invalid14 => false
  | .invalid15 => false

/-- A program file's length is a multiple of 4 (20_memory.md R67, R68). -/
def fileWellFormed (file : List Byte) : Bool := file.length % 4 == 0

/-- `PROG` is short enough for a 32-bit index (00_scope.md R6, D15; 70_reset_and_hazards.md R234). -/
def progWellFormed (prog : List Word) : Bool := decide (prog.length < Config.progLenBound)

end Sys2Proof
end

