-- ==== Sys2Proof/Decode.lean ====
section
/-! DEFINITION. The Bit-Field Codec, the decoder, the encoder and the big-endian reading of a program file
(30_encoding.md R90 to R106, 20_memory.md R67). -/

namespace Sys2Proof

/-- `field(v, w, lsb)` (R90): the `w` bits of `v` from bit `lsb` up, unsigned. DESIGN CHOICE (log 21): outside R90's
precondition, where `lsb + w > 32`, the spec gives no value and the same formula goes on; unsafe for a claim about
`field` there. The decoder never calls it there. -/
def field (v : Word) (w lsb : Nat) : Nat := v.toNat / 2 ^ lsb % 2 ^ w

/-- A 3-bit field of a word as a register index (R93, R95: used as is). -/
def regField (word : Word) (lsb : Nat) : RegIdx :=
  ⟨field word 3 lsb, Nat.mod_lt _ (by decide)⟩

/-- The register fields of format R3 (R93). -/
def fieldA (word : Word) : RegIdx := regField word 6
def fieldB (word : Word) : RegIdx := regField word 3
def fieldC (word : Word) : RegIdx := regField word 0

/-- The fields of format LI (R94). -/
def fieldALI (word : Word) : RegIdx := regField word 25
def fieldImm (word : Word) : Imm := BitVec.ofNat 25 (field word 25 0)

/-- Decode (R100, with the map of R96). Total (R101): the last arm is opcode 15, since a 4-bit field is below 16. -/
def decode (word : Word) : Instr :=
  match field word 4 28 with
  | 0 => .cmov (fieldA word) (fieldB word) (fieldC word)
  | 1 => .sload (fieldA word) (fieldB word) (fieldC word)
  | 2 => .sstore (fieldA word) (fieldB word) (fieldC word)
  | 3 => .add (fieldA word) (fieldB word) (fieldC word)
  | 4 => .mul (fieldA word) (fieldB word) (fieldC word)
  | 5 => .div (fieldA word) (fieldB word) (fieldC word)
  | 6 => .nand (fieldA word) (fieldB word) (fieldC word)
  | 7 => .halt
  | 8 => .map (fieldB word) (fieldC word)
  | 9 => .unmap (fieldC word)
  | 10 => .out (fieldC word)
  | 11 => .inp (fieldC word)
  | 12 => .loadprog (fieldB word) (fieldC word)
  | 13 => .loadimm (fieldALI word) (fieldImm word)
  | 14 => .invalid14
  | _ => .invalid15

/-- Format R3's canonical word, unwritten bits 0 (R106). -/
def wordR3 (opcode a b c : Nat) : Word := BitVec.ofNat 32 (opcode * 2 ^ 28 + a * 64 + b * 8 + c)

/-- Format LI's canonical word (R106). -/
def wordLI (opcode a imm : Nat) : Word := BitVec.ofNat 32 (opcode * 2 ^ 28 + a * 2 ^ 25 + imm)

/-- The canonical encoding (R106); for the two invalid rows the word with all other bits 0. -/
def encode : Instr → Word
  | .cmov a b c => wordR3 0 a b c
  | .sload a b c => wordR3 1 a b c
  | .sstore a b c => wordR3 2 a b c
  | .add a b c => wordR3 3 a b c
  | .mul a b c => wordR3 4 a b c
  | .div a b c => wordR3 5 a b c
  | .nand a b c => wordR3 6 a b c
  | .halt => wordR3 7 0 0 0
  | .map b c => wordR3 8 0 b c
  | .unmap c => wordR3 9 0 0 c
  | .out c => wordR3 10 0 0 c
  | .inp c => wordR3 11 0 0 c
  | .loadprog b c => wordR3 12 0 b c
  | .loadimm a imm => wordLI 13 a imm.toNat
  | .invalid14 => wordR3 14 0 0 0
  | .invalid15 => wordR3 15 0 0 0

/-- Why a byte sequence is no sequence of instruction words. -/
inductive DecodeError where
  /-- The bytes end inside a word: the length is no multiple of 4 (20_memory.md R68). -/
  | truncatedWord
  deriving DecidableEq, Repr

/-- Four file bytes as a word, most significant first (20_memory.md R67). -/
def wordOfBytes (b0 b1 b2 b3 : Byte) : Word :=
  BitVec.ofNat 32 (b0.toNat * 2 ^ 24 + b1.toNat * 2 ^ 16 + b2.toNat * 2 ^ 8 + b3.toNat)

/-- A program file as the words of the initial segment 0 (20_memory.md R67). -/
def wordsOfFile : List Byte → Except DecodeError (List Word)
  | [] => .ok []
  | b0 :: b1 :: b2 :: b3 :: rest =>
    match wordsOfFile rest with
    | .ok ws => .ok (wordOfBytes b0 b1 b2 b3 :: ws)
    | .error e => .error e
  | [_] => .error .truncatedWord
  | [_, _] => .error .truncatedWord
  | [_, _, _] => .error .truncatedWord

/-- The first instruction of a byte sequence and the bytes after it. -/
def decodeBytes : List Byte → Except DecodeError (Instr × List Byte)
  | b0 :: b1 :: b2 :: b3 :: rest => .ok (decode (wordOfBytes b0 b1 b2 b3), rest)
  | _ => .error .truncatedWord

/-- The instruction of a table row's word. The machine stores whole 32-bit words (20_memory.md R67), so the bits
are the word; more than 32 bits are no instruction (30_encoding.md R91). -/
def decodeTableWord (nbits w : Nat) : Option Instr :=
  if nbits ≤ 32 ∧ w < 2 ^ 32 then some (decode (BitVec.ofNat 32 w)) else none

end Sys2Proof
end

