-- ==== Sys2Proof/Machine/Flags.lean ====
section
/-! DEFINITION. The machine has no flags (10_state.md R27): no operation sets one, and an overflow is lost
(40_alu.md R126). What stands in their place are the results below and the two tests of a register value on which
an instruction depends. -/

namespace Sys2Proof.Machine

/-- `a +_32 b`: the carry out of bit 31 is discarded (40_alu.md R121, R126). -/
def add32 (a b : Word) : Word := a + b

/-- `a *_32 b`: the low 32 bits of the product (40_alu.md R122, R126). -/
def mul32 (a b : Word) : Word := a * b

/-- `a div_u b`, for `b` not 0: the floor of the unsigned quotient (40_alu.md R123, R126). -/
def divU32 (a b : Word) : Word := BitVec.ofNat 32 (a.toNat / b.toNat)

/-- `~_32 (a & b)` (40_alu.md R124, R126). -/
def nand32 (a b : Word) : Word := ~~~(a &&& b)

/-- All 32 bits are zero: the test of CMOV, DIV and LOADPROG (40_alu.md R120, R123; 43_control.md R172). -/
def isZero (v : Word) : Bool := v == 0

/-- The value is no byte, 0 to 255: the test of OUT and IN (42_console.md R160, R161). -/
def outOfByteRange (v : Word) : Bool := decide (255 < v.toNat)

end Sys2Proof.Machine
end

