-- ==== Sys2Proof/Machine/State.lean ====
section
/-! DEFINITION. The state of the whole machine: the core's triple (`x`, `pc`, `run`) of 10_state.md R20, the Segment
Memory Manager's address space (20_memory.md R57, R64) and the two console streams (42_console.md R162). -/

namespace Sys2Proof.Machine

/-- The five abnormal causes (60_exceptions.md R191). -/
inductive Cause where
  /-- Fetch with `pc` not less than the length of segment 0 (R192). -/
  | fetchOob
  /-- The manager answered `fault` (R193). -/
  | memFault
  /-- A fetched word with opcode 14 or 15 (43_control.md R174). -/
  | invalidOpcode
  /-- DIV with a zero divisor (40_alu.md R123). -/
  | divZero
  /-- A console value above 255 (42_console.md R160, R161). -/
  | consoleRange
  deriving DecidableEq, Repr

/-- The run state (10_state.md R28). -/
inductive RunState where
  | running
  | halted
  | stopped (cause : Cause)
  deriving DecidableEq, Repr

/-- One word of a segment at its offset. The addressable unit is the 32-bit word (20_memory.md R50; log 2). -/
abbrev Cell := Nat × Word

/-- A segment (20_memory.md R51): its length in words and the words that are not `Config.freshWord`, offsets rising. -/
structure Segment where
  len : Word
  cells : List Cell
  deriving DecidableEq, Repr

/-- The manager's address space, in the form of its reference model (20_memory.md R64): the slot of each id handed
out so far (`none` = not active), the free-id pool, most recently freed id first, and whether the environment
lacks the storage for an ALLOC (R65; log 7). -/
structure Memory where
  table : List (Option Segment)
  free : List Nat
  noStorage : Bool
  deriving DecidableEq, Repr

/-- The console streams (42_console.md R162): the bytes emitted, oldest first; whether the consumer accepts a byte
now; the input bytes that have reached the port and are not yet delivered; whether end of stream follows them, or
nothing has arrived yet (log 5). -/
structure Console where
  output : List Byte
  outReady : Bool
  input : List Byte
  inputEnded : Bool
  deriving DecidableEq, Repr

/-- The machine (10_state.md R20, R33). -/
structure State where
  regs : Vector Word 8
  pc : Word
  run : RunState
  mem : Memory
  console : Console
  deriving DecidableEq, Repr

/-- What ends a boot outside the core. No step and no instruction answers a fault: a stop is a state (60_exceptions.md R195). -/
inductive Fault where
  /-- `bootFile`: the program file's length is no multiple of 4, so the file never reaches the core
  (20_memory.md R68, 60_exceptions.md R204). Safe: the machine does not start. -/
  | programFileLength
  deriving DecidableEq, Repr

/-- What the model gives no meaning. No step and no instruction answers a refusal. -/
inductive Refusal where
  /-- An arm of `exec` without a meaning. No arm answers it. Safe. -/
  | notModelled (mnemonic : String)
  /-- `hostReset`: a reset of the core over a used address space (70_reset_and_hazards.md R231, U13). Safe. -/
  | coreResetAlone
  /-- `hostReset`: a `PROG` of 2^32 words or more (R234, D15). Safe. -/
  | programTooLong
  deriving DecidableEq, Repr

/-- Cells in canonical form between two offsets: offsets rising from `lo`, below `hi`, no fresh word listed. -/
def cellsWf (lo hi : Nat) : List Cell → Bool
  | [] => true
  | (k, v) :: rest => decide (lo ≤ k) && decide (k < hi) && decide (v ≠ Config.freshWord) && cellsWf (k + 1) hi rest

/-- A segment in canonical form: every listed word lies inside its length (R51). -/
def Segment.wf (g : Segment) : Bool := cellsWf 0 g.len.toNat g.cells

/-- A slot in canonical form. -/
def slotWf : Option Segment → Bool
  | none => true
  | some g => g.wf

/-- The canonical form of memory and the invariant of the address space (20_memory.md R57, R65): id 0 is active;
every segment is canonical; ids fit in 32 bits; the free-id pool holds each id handed out and not active, once. -/
abbrev Memory.wf (m : Memory) : Prop :=
  (m.table[0]?).join.isSome = true ∧
  (∀ slot ∈ m.table, slotWf slot = true) ∧
  m.table.length ≤ Config.maxSegments ∧
  m.free.Nodup ∧
  (∀ id ∈ m.free, m.table[id]? = some none) ∧
  (∀ id < m.table.length, m.table[id]? = some none → id ∈ m.free)

/-- The address space after `init` with the empty program (R56, R64; log 3). -/
def Memory.reset : Memory := { table := [some { len := 0, cells := [] }], free := [], noStorage := false }

/-- The console at the start of a run (10_state.md R33), with the empty `INPUT` (log 4) and a consumer that accepts
(log 5). -/
def Console.reset : Console := { output := [], outReady := true, input := [], inputEnded := true }

/-- The machine after reset (10_state.md R33, 70_reset_and_hazards.md R230), with the empty `PROG` and `INPUT`. -/
def State.reset : State :=
  { regs := Vector.replicate 8 0, pc := Config.pcReset, run := .running, mem := Memory.reset, console := Console.reset }

end Sys2Proof.Machine
end

