-- ==== Sys2Proof/Machine/Operands.lean ====
section
/-! DEFINITION. The operand forms: a register as source or destination and the zero-extended literal
(10_state.md R21 to R23, 30_encoding.md R95). There are no others: no addressing mode, no displacement
(41_segment.md R144: an address is two whole register values). -/

namespace Sys2Proof.Machine

/-- `x[i]` (00_scope.md R8). No register is hard-wired (10_state.md R21). -/
def State.reg (s : State) (r : RegIdx) : Word := s.regs[r.val]'r.isLt

/-- `x[i] <- v` (R8). -/
def State.setReg (s : State) (r : RegIdx) (v : Word) : State := { s with regs := s.regs.set r.val v r.isLt }

/-- `zext_32` of the literal (R8, 30_encoding.md R95). -/
def immValue (imm : Imm) : Word := BitVec.ofNat 32 imm.toNat

/-- `zext_32` of a console byte (42_console.md R161). -/
def byteValue (b : Byte) : Word := BitVec.ofNat 32 b.toNat

/-- The low byte `v[7:0]` (42_console.md R160). -/
def lowByte (v : Word) : Byte := BitVec.ofNat 8 (v.toNat % 256)

end Sys2Proof.Machine
end

