-- ==== Sys2Proof/Machine/Ops.lean ====
section
/-! DEFINITION. The named operations: updates of the state, stopping and completing an instruction, the Segment Memory
Manager's five requests (20_memory.md R58 to R65), the console ports (42_console.md R162) and the fetch (R53). -/

namespace Sys2Proof.Machine

/-! ### Updates -/

def State.setPc (s : State) (pc : Word) : State := { s with pc := pc }
def State.setRun (s : State) (run : RunState) : State := { s with run := run }
def State.setMem (s : State) (mem : Memory) : State := { s with mem := mem }
def State.setConsole (s : State) (console : Console) : State := { s with console := console }

/-! ### How an instruction ends -/

/-- An instruction's answer. -/
abbrev Result := Host.Outcome State Fault Refusal

/-- `raise Fatal(cause)` (60_exceptions.md R195): `run` records the cause and nothing else changes. Every stop of
every instruction goes through here. There is no return from it (R197). -/
def raiseFatal (cause : Cause) (s : State) : Result := .next (s.setRun (.stopped cause))

/-- `stop Halted` (43_control.md R170): `pc` stays at the HALT. -/
def stopHalted (s : State) : Result := .next (s.setRun .halted)

/-- The handler has completed: `pc <- pc + 1` (10_state.md R25, 43_control.md R176). -/
def complete (s : State) : Result := .next (s.setPc (s.pc + 1))

/-- LOADPROG has completed: `pc` is exactly the target (10_state.md R25, 43_control.md R172). -/
def jump (target : Word) (s : State) : Result := .next (s.setPc target)

/-- A console port has not answered: the core waits, still RUNNING, and changes nothing (42_console.md R162; log 5). -/
def wait (s : State) : Result := .next s

/-- The manager's answer: a `fault` (`none`) is `raise Fatal(MEM_FAULT)`; an `ok` goes on (20_memory.md R52). -/
def onAnswer {α : Type} (answer : Option α) (s : State) (k : α → Result) : Result :=
  match answer with
  | none => raiseFatal .memFault s
  | some v => k v

/-! ### Words of a segment -/

/-- The word at an offset; an unlisted one is fresh. -/
def cellRead : List Cell → Nat → Word
  | [], _ => Config.freshWord
  | (k, v) :: rest, off => if k = off then v else cellRead rest off

/-- List `v` at an offset, in rising order. -/
def cellInsert : List Cell → Nat → Word → List Cell
  | [], off, v => [(off, v)]
  | (k, w) :: rest, off, v =>
    if off < k then (off, v) :: (k, w) :: rest
    else if off = k then (off, v) :: rest
    else (k, w) :: cellInsert rest off v

/-- List nothing at an offset. -/
def cellErase : List Cell → Nat → List Cell
  | [], _ => []
  | (k, w) :: rest, off => if k = off then cellErase rest off else (k, w) :: cellErase rest off

/-- The word at an offset becomes `v`; a fresh word is not listed. -/
def cellWrite (cells : List Cell) (off : Nat) (v : Word) : List Cell :=
  if v = Config.freshWord then cellErase cells off else cellInsert cells off v

/-- A segment of `len` words, all zero (20_memory.md R51, R58). -/
def freshSegment (len : Word) : Segment := { len := len, cells := [] }

/-- The words of a list, from an offset up, without the fresh ones. -/
def cellsFrom (off : Nat) : List Word → List Cell
  | [] => []
  | w :: rest => if w = Config.freshWord then cellsFrom (off + 1) rest else (off, w) :: cellsFrom (off + 1) rest

/-- The segment that holds a list of words (20_memory.md R56). -/
def segmentOfWords (ws : List Word) : Segment := { len := BitVec.ofNat 32 ws.length, cells := cellsFrom 0 ws }

/-! ### The manager's requests; `none` is the answer `fault` -/

/-- The segment at an id, if the id is active (20_memory.md R57). -/
def segmentAt (m : Memory) (id : Word) : Option Segment := (m.table[id.toNat]?).join

/-- The segment at an id when the offset lies inside it: the validity of an address (20_memory.md R71). -/
def segmentFor (m : Memory) (id off : Word) : Option Segment :=
  match segmentAt m id with
  | none => none
  | some g => if off.toNat < g.len.toNat then some g else none

/-- `init(PROG)` (20_memory.md R56, R64). -/
def mgrInit (prog : List Word) : Memory := { table := [some (segmentOfWords prog)], free := [], noStorage := false }

/-- `READ(id, off)` (20_memory.md R60). -/
def mgrRead (m : Memory) (id off : Word) : Option Word :=
  match segmentFor m id off with
  | none => none
  | some g => some (cellRead g.cells off.toNat)

/-- The address space with a segment installed at an id handed out before. -/
def putSegment (m : Memory) (id : Nat) (g : Segment) : Memory := { m with table := m.table.set id (some g) }

/-- `WRITE(id, off, v)` (20_memory.md R61). -/
def mgrWrite (m : Memory) (id off v : Word) : Option Memory :=
  match segmentFor m id off with
  | none => none
  | some g => some (putSegment m id.toNat { g with cells := cellWrite g.cells off.toNat v })

/-- `ALLOC(len)` (20_memory.md R58): the most recently freed id, else one past the highest id handed out. `fault`
where the environment has no storage (R65; log 7) or the id would need a 33rd bit (R65, D15; log 8). -/
def mgrAlloc (m : Memory) (len : Word) : Option (Word × Memory) :=
  if m.noStorage then none
  else
    match m.free with
    | id :: rest => some (BitVec.ofNat 32 id, { putSegment m id (freshSegment len) with free := rest })
    | [] =>
      if m.table.length < Config.maxSegments then
        some (BitVec.ofNat 32 m.table.length, { m with table := m.table ++ [some (freshSegment len)] })
      else none

/-- `FREE(id)` (20_memory.md R59). -/
def mgrFree (m : Memory) (id : Word) : Option Memory :=
  if id = 0 then none
  else
    match segmentAt m id with
    | none => none
    | some _ => some { m with table := m.table.set id.toNat none, free := id.toNat :: m.free }

/-- `REPLACE0(id)` (20_memory.md R62): segment 0 becomes a copy; the two are independent afterwards (R79). -/
def mgrReplace0 (m : Memory) (id : Word) : Option Memory :=
  match segmentAt m id with
  | none => none
  | some g => some (putSegment m 0 g)

/-! ### The console ports -/

/-- What the input port answers now. -/
inductive InAnswer where
  | byte (b : Byte)
  | eos
  | notYet
  deriving DecidableEq, Repr

/-- `ConIn()` (R8, 42_console.md R162, R163): the next byte, which is consumed; end of stream, for good; or no answer
yet. -/
def conIn (c : Console) : InAnswer × Console :=
  match c.input with
  | b :: rest => (.byte b, { c with input := rest })
  | [] => (if c.inputEnded then .eos else .notYet, c)

/-- `ConOut(b)` (R8, 42_console.md R162), once the consumer has accepted the byte. -/
def conOut (c : Console) (b : Byte) : Console := { c with output := c.output ++ [b] }

/-! ### Fetch -/

/-- `Fetch(pc)` (20_memory.md R53): `READ(0, pc)`. -/
def fetch (s : State) : Option Word := mgrRead s.mem 0 s.pc

/-- Segment 0 with a word at an offset, made long enough to hold it, every other segment as it was; no segment holds
offset 2^32 - 1 (20_memory.md R51, D15), and there nothing is placed (log 20). -/
def plantWord (m : Memory) (off w : Word) : Memory :=
  if off = 0xFFFFFFFF then m
  else
    match (m.table[0]?).join with
    | some g =>
      putSegment m 0 { len := if off.toNat < g.len.toNat then g.len else off + 1,
                       cells := cellWrite g.cells off.toNat w }
    | none => { m with table := some { len := off + 1, cells := cellWrite [] off.toNat w } :: m.table.drop 1 }

end Sys2Proof.Machine
end

