-- ==== Sys2Proof/Machine/ConsoleIO.lean ====
section
/-! DEFINITION. The two console instructions (42_console.md R160, R161). -/

namespace Sys2Proof.Machine

/-- OUT (42_console.md R160): the range check comes first; then the byte goes out once the consumer accepts it. -/
def execOut (c : RegIdx) (s : State) : Result :=
  if outOfByteRange (s.reg c) then raiseFatal .consoleRange s
  else if s.console.outReady then complete (s.setConsole (conOut s.console (lowByte (s.reg c))))
  else wait s

/-- IN (42_console.md R161). The range check is the rule's own; an 8-bit port never fails it (log 15). -/
def execInp (c : RegIdx) (s : State) : Result :=
  match conIn s.console with
  | (.notYet, _) => wait s
  | (.eos, console) => complete ((s.setConsole console).setReg c Config.eosWord)
  | (.byte b, console) =>
    if outOfByteRange (byteValue b) then raiseFatal .consoleRange s
    else complete ((s.setConsole console).setReg c (byteValue b))

end Sys2Proof.Machine
end

