-- ==== Sys2Proof/Machine/Control.lean ====
section
/-! DEFINITION. HALT, LOADPROG and the two invalid opcodes (43_control.md R170, R172, R174). -/

namespace Sys2Proof.Machine

/-- HALT (43_control.md R170). -/
def execHalt (s : State) : Result := stopHalted s

/-- LOADPROG (43_control.md R172): with a zero id no request is issued; the target is not checked (R177). -/
def execLoadprog (b c : RegIdx) (s : State) : Result :=
  if isZero (s.reg b) then jump (s.reg c) s
  else onAnswer (mgrReplace0 s.mem (s.reg b)) s fun m => jump (s.reg c) (s.setMem m)

/-- Opcode 14 (43_control.md R174). -/
def execInvalid14 (s : State) : Result := raiseFatal .invalidOpcode s

/-- Opcode 15 (43_control.md R174). -/
def execInvalid15 (s : State) : Result := raiseFatal .invalidOpcode s

end Sys2Proof.Machine
end

