-- ==== Sys2Proof/Machine/Register.lean ====
section
/-! DEFINITION. The six instructions that touch only the register file (40_alu.md R120 to R125). -/

namespace Sys2Proof.Machine

/-- CMOV (40_alu.md R120). -/
def execCmov (a b c : RegIdx) (s : State) : Result :=
  complete (if isZero (s.reg c) then s else s.setReg a (s.reg b))

/-- ADD (40_alu.md R121). -/
def execAdd (a b c : RegIdx) (s : State) : Result :=
  complete (s.setReg a (add32 (s.reg b) (s.reg c)))

/-- MUL (40_alu.md R122). -/
def execMul (a b c : RegIdx) (s : State) : Result :=
  complete (s.setReg a (mul32 (s.reg b) (s.reg c)))

/-- DIV (40_alu.md R123). -/
def execDiv (a b c : RegIdx) (s : State) : Result :=
  if isZero (s.reg c) then raiseFatal .divZero s
  else complete (s.setReg a (divU32 (s.reg b) (s.reg c)))

/-- NAND (40_alu.md R124). -/
def execNand (a b c : RegIdx) (s : State) : Result :=
  complete (s.setReg a (nand32 (s.reg b) (s.reg c)))

/-- LOADIMM (40_alu.md R125). -/
def execLoadimm (a : RegIdx) (imm : Imm) (s : State) : Result :=
  complete (s.setReg a (immValue imm))

end Sys2Proof.Machine
end

