-- ==== Sys2Proof/Machine/Segments.lean ====
section
/-! DEFINITION. The four segment instructions (41_segment.md R140 to R143). The core checks nothing itself: every stop
is the manager's `fault` (R145). -/

namespace Sys2Proof.Machine

/-- SLOAD (41_segment.md R140). -/
def execSload (a b c : RegIdx) (s : State) : Result :=
  onAnswer (mgrRead s.mem (s.reg b) (s.reg c)) s fun v => complete (s.setReg a v)

/-- SSTORE (41_segment.md R141). -/
def execSstore (a b c : RegIdx) (s : State) : Result :=
  onAnswer (mgrWrite s.mem (s.reg a) (s.reg b) (s.reg c)) s fun m => complete (s.setMem m)

/-- MAP (41_segment.md R142). -/
def execMap (b c : RegIdx) (s : State) : Result :=
  onAnswer (mgrAlloc s.mem (s.reg c)) s fun answer => complete ((s.setMem answer.2).setReg b answer.1)

/-- UNMAP (41_segment.md R143). -/
def execUnmap (c : RegIdx) (s : State) : Result :=
  onAnswer (mgrFree s.mem (s.reg c)) s fun m => complete (s.setMem m)

end Sys2Proof.Machine
end

