-- ==== Sys2Proof/Machine/Step.lean ====
section
/-! DEFINITION. The PC sequencer's step (43_control.md R176) and the placing of one instruction for it to run. -/

namespace Sys2Proof.Machine

/-- One step (43_control.md R176): fetch, decode, dispatch. A fetch out of bounds stops with FETCH_OOB (20_memory.md
R53). A core that is HALTED or STOPPED performs no step and holds its state (60_exceptions.md R198; log 9). -/
def step (s : State) : Host.Outcome State Fault Refusal :=
  match s.run with
  | .running =>
    match fetch s with
    | none => raiseFatal .fetchOob s
    | some word => exec (decode word) s
  | .halted => .next s
  | .stopped _ => .next s

/-- `s` with the word `w` at index `pc` of segment 0 and the core RUNNING, so that the next step runs it (log 20). -/
def State.withFetchWord (s : State) (_nbits w : Nat) : State :=
  (s.setMem (plantWord s.mem s.pc (BitVec.ofNat 32 w))).setRun .running

end Sys2Proof.Machine
end

