-- ==== Sys2Proof/Machine/Port.lean ====
section
/-! DEFINITION. The memory port as 10_state.md R30 lists it: the five request kinds, the manager's answer to each, and
the one request of each instruction (20_memory.md R54). The meanings issue these requests through the same manager
operations; this table is what claims compare them with. -/

namespace Sys2Proof.Machine

/-- A request on the memory port (10_state.md R30). -/
inductive MemRequest where
  | read (id off : Word)
  | write (id off data : Word)
  | alloc (len : Word)
  | free (id : Word)
  | replace0 (id : Word)
  deriving DecidableEq, Repr

/-- The address space after the manager's answer; `none` is the answer `fault` (20_memory.md R58 to R63). -/
def answer (m : Memory) : MemRequest → Option Memory
  | .read id off => (mgrRead m id off).map fun _ => m
  | .write id off data => mgrWrite m id off data
  | .alloc len => (mgrAlloc m len).map Prod.snd
  | .free id => mgrFree m id
  | .replace0 id => mgrReplace0 m id

/-- The request an instruction issues after its fetch (20_memory.md R54). -/
def requestOf (i : Instr) (s : State) : Option MemRequest :=
  match i with
  | .cmov _ _ _ => none
  | .sload _ b c => some (.read (s.reg b) (s.reg c))
  | .sstore a b c => some (.write (s.reg a) (s.reg b) (s.reg c))
  | .add _ _ _ => none
  | .mul _ _ _ => none
  | .div _ _ _ => none
  | .nand _ _ _ => none
  | .halt => none
  | .map _ c => some (.alloc (s.reg c))
  | .unmap c => some (.free (s.reg c))
  | .out _ => none
  | .inp _ => none
  | .loadprog b _ => if isZero (s.reg b) then none else some (.replace0 (s.reg b))
  | .loadimm _ _ => none
  | .invalid14 => none
  | .invalid15 => none

/-- The registers an instruction reads (10_state.md R22). -/
def readsOf (i : Instr) (s : State) : List RegIdx :=
  match i with
  | .cmov _ b c => if isZero (s.reg c) then [c] else [c, b]
  | .sload _ b c => [b, c]
  | .sstore a b c => [a, b, c]
  | .add _ b c => [b, c]
  | .mul _ b c => [b, c]
  | .div _ b c => [b, c]
  | .nand _ b c => [b, c]
  | .halt => []
  | .map _ c => [c]
  | .unmap c => [c]
  | .out c => [c]
  | .inp _ => []
  | .loadprog b c => [b, c]
  | .loadimm _ _ => []
  | .invalid14 => []
  | .invalid15 => []

/-- The registers an instruction writes (10_state.md R22). -/
def writesOf (i : Instr) (s : State) : List RegIdx :=
  match i with
  | .cmov a _ c => if isZero (s.reg c) then [] else [a]
  | .sload a _ _ => [a]
  | .sstore _ _ _ => []
  | .add a _ _ => [a]
  | .mul a _ _ => [a]
  | .div a _ c => if isZero (s.reg c) then [] else [a]
  | .nand a _ _ => [a]
  | .halt => []
  | .map b _ => [b]
  | .unmap _ => []
  | .out _ => []
  | .inp c => [c]
  | .loadprog _ _ => []
  | .loadimm a _ => [a]
  | .invalid14 => []
  | .invalid15 => []

end Sys2Proof.Machine
end

