-- ==== Sys2Proof/Machine/HostPort.lean ====
section
/-! DEFINITION. What stands around the core: the status port (10_state.md R29, R30), the host's four interactions
(70_reset_and_hazards.md R230 to R234), the exit status (60_exceptions.md R204) and the console environment's
answers (42_console.md R162). No instruction reads any of it. -/

namespace Sys2Proof.Machine

/-! ### Observe -/

/-- `STATUS.CAUSE` of a cause (60_exceptions.md R191). -/
def causeCode : Cause → Nat
  | .fetchOob => 1
  | .memFault => 2
  | .invalidOpcode => 3
  | .divZero => 4
  | .consoleRange => 5

/-- `STATUS.STATE` (10_state.md R29). -/
def stateField : RunState → Nat
  | .running => 0
  | .halted => 1
  | .stopped _ => 2

/-- `STATUS.CAUSE` (10_state.md R29): 0 unless stopped. -/
def causeField : RunState → Nat
  | .running => 0
  | .halted => 0
  | .stopped cause => causeCode cause

/-- The `STATUS` register (10_state.md R29), a view of `run`: STATE in 1:0, CAUSE in 4:2, the rest 0. -/
def statusWord (run : RunState) : Word := BitVec.ofNat 32 (causeField run * 4 + stateField run)

/-- What the status port shows (10_state.md R30); `segments` are there once the run has ended, and until reset
(43_control.md R173, D20). -/
structure StatusView where
  status : Word
  pc : Word
  regs : Vector Word 8
  segments : Option (List (Option Segment))
  deriving DecidableEq, Repr

/-- The run has left RUNNING (43_control.md R173). -/
def ended : RunState → Bool
  | .running => false
  | .halted => true
  | .stopped _ => true

/-- The status port: reading it has no effect (70_reset_and_hazards.md R234). -/
def statusPort (s : State) : StatusView :=
  { status := statusWord s.run, pc := s.pc, regs := s.regs,
    segments := if ended s.run then some s.mem.table else none }

/-- The word the host sees at an address (43_control.md R173): none where no segments are shown or the address is not
valid (20_memory.md R71). It sees no more of the manager than the segments. -/
def viewedWord (view : StatusView) (id off : Word) : Option Word :=
  view.segments.bind fun table => mgrRead { table := table, free := [], noStorage := false } id off

/-! ### Load and reset -/

/-- What the host attaches before it releases reset (70_reset_and_hazards.md R233): the program, the input bytes that
have arrived, and whether end of stream follows them. -/
structure Boot where
  prog : List Word
  input : List Byte
  inputEnded : Bool
  deriving DecidableEq, Repr

/-- The machine right after reset over a re-initialised environment (10_state.md R33; log 3, 4). -/
def boot (b : Boot) : State :=
  { State.reset with
    mem := mgrInit b.prog, console := { Console.reset with input := b.input, inputEnded := b.inputEnded } }

/-- Reset asserted in any state (70_reset_and_hazards.md R230, R231): it begins one run. Without a re-initialisation
of the environment (`none`) it is refused (R231, U13), and so is a `PROG` that is too long (R234). -/
def hostReset (_s : State) (environment : Option Boot) : Result :=
  match environment with
  | none => .refused .coreResetAlone
  | some b => if progWellFormed b.prog then .next (boot b) else .refused .programTooLong

/-- Load from a program file (20_memory.md R67, R68; 70_reset_and_hazards.md R233), then reset. -/
def bootFile (s : State) (file : List Byte) (input : List Byte) (inputEnded : Bool) : Result :=
  match wordsOfFile file with
  | .error _ => .fault .programFileLength
  | .ok prog => hostReset s (some { prog := prog, input := input, inputEnded := inputEnded })

/-! ### Collect -/

/-- The process exit status of a final run state (60_exceptions.md R204); none while RUNNING. -/
def exitStatus : RunState → Option Nat
  | .running => none
  | .halted => some 0
  | .stopped .fetchOob => some 1
  | .stopped .memFault => some Config.exitFatal
  | .stopped .invalidOpcode => some Config.exitFatal
  | .stopped .divZero => some Config.exitFatal
  | .stopped .consoleRange => some Config.exitFatal

/-- The result of a finished run as the host sees it (43_control.md R173): the final run state, with its cause, and the
bytes emitted. -/
structure RunResult where
  run : RunState
  output : List Byte
  deriving DecidableEq, Repr

/-- The result of the run, once it has ended (43_control.md R173). -/
def runResult (s : State) : Option RunResult :=
  if ended s.run then some { run := s.run, output := s.console.output } else none

/-- Collect (70_reset_and_hazards.md R234): the result and the exit status it maps to (60_exceptions.md R204). -/
def collect (s : State) : Option (RunResult × Nat) :=
  (runResult s).bind fun r => (exitStatus r.run).map fun code => (r, code)

/-! ### The console environment (log 5): it touches its own side of the ports and nothing of the core -/

/-- A byte of `INPUT` reaches the input port; after end of stream none does (42_console.md R162, R163). -/
def inputArrives (b : Byte) (s : State) : State :=
  if s.console.inputEnded then s else s.setConsole { s.console with input := s.console.input ++ [b] }

/-- The end of `INPUT` reaches the input port, for good (42_console.md R163). -/
def inputEnds (s : State) : State := s.setConsole { s.console with inputEnded := true }

/-- The consumer becomes ready to accept a byte, or busy (42_console.md R162). -/
def consumerReady (ready : Bool) (s : State) : State := s.setConsole { s.console with outReady := ready }

/-- The manager's storage runs out, or is there again (20_memory.md R65; log 7). -/
def storageRunsOut (out : Bool) (s : State) : State := s.setMem { s.mem with noStorage := out }

end Sys2Proof.Machine
end

