-- ==== Sys2Proof/Safety.lean ====
section
/-! DEFINITION. What counts as a good state and a good end of a run, in the terms claims use. -/

namespace Sys2Proof.Safety

open Sys2Proof.Machine

/-- The invariant of the machine's state: the address space is in its canonical form (20_memory.md R57). -/
abbrev Inv (s : State) : Prop := s.mem.wf

/-- The run has succeeded: a HALT was executed (10_state.md R28). -/
def succeeded (s : State) : Bool := s.run == .halted

/-- The run has ended abnormally (60_exceptions.md R190). -/
def abnormal (s : State) : Bool :=
  match s.run with
  | .running => false
  | .halted => false
  | .stopped _ => true

/-- Nothing has gone wrong so far: the core runs or has halted (70_reset_and_hazards.md R240). -/
def safe (s : State) : Bool := !abnormal s

end Sys2Proof.Safety
end

