-- ==== Sys2Proof/Certificates/Slice0/Obligations.lean ====
section
/-! DEFINITION. The statements about the UM core. Each docstring names the rule of spec/ it formalises. -/

namespace Sys2Proof.Claims

open Sys2Proof.Machine

/-! ### What an instruction leaves unchanged -/

/-- Every register holds what it held. -/
def keepsRegs (s t : State) : Prop := ∀ r, t.reg r = s.reg r

/-- Every register but `a` holds what it held. -/
def keepsOtherRegs (a : RegIdx) (s t : State) : Prop := ∀ r, r ≠ a → t.reg r = s.reg r

/-- The whole address space is as it was; in particular every word of memory reads as before. -/
def keepsMemory (s t : State) : Prop :=
  t.mem = s.mem ∧ ∀ id off, mgrRead t.mem id off = mgrRead s.mem id off

/-- It goes on to the next word, in the same run state. -/
def advances (s t : State) : Prop := t.pc = s.pc + 1 ∧ t.run = s.run

/-- Register `a` is written, and nothing else but `pc` changes. -/
def writesOnlyReg (a : RegIdx) (s t : State) : Prop :=
  keepsOtherRegs a s t ∧ advances s t ∧ keepsMemory s t ∧ t.console = s.console

/-- `t` is `s` stopped with a cause: nothing but `run` changes. -/
def stoppedFrom (cause : Cause) (s t : State) : Prop :=
  t.run = .stopped cause ∧ t.pc = s.pc ∧ keepsRegs s t ∧ keepsMemory s t ∧ t.console = s.console

/-- The instruction ends the run with a cause. -/
def stopsWith (cause : Cause) (i : Instr) (s : State) : Prop := ∃ t, exec i s = .next t ∧ stoppedFrom cause s t

/-- `(id, off)` is a valid address (20_memory.md R71). -/
def validAddress (m : Memory) (id off : Word) : Prop :=
  ∃ g, segmentAt m id = some g ∧ off.toNat < g.len.toNat

/-- The id is not active, or the offset is not below its segment's length (20_memory.md R60). -/
def faultyAddress (m : Memory) (id off : Word) : Prop :=
  segmentAt m id = none ∨ ∃ g, segmentAt m id = some g ∧ g.len.toNat ≤ off.toNat

/-- Every segment but the one at `id` is the same. -/
def keepsOtherSegments (id : Word) (s t : State) : Prop :=
  ∀ j, j ≠ id → segmentAt t.mem j = segmentAt s.mem j ∧ ∀ off, mgrRead t.mem j off = mgrRead s.mem j off

/-! ### Encodings, as each instruction's rule prints them: `x` bits may be anything -/

/-- `oooo x.. AAA BBB CCC`, with its canonical word. -/
def encodedABC (op : Nat) (a b c : RegIdx) (i : Instr) : Prop :=
  (encode i).toNat = op * 2 ^ 28 + a.val * 64 + b.val * 8 + c.val ∧
  ∀ w : Word, w.toNat / 2 ^ 28 = op → w.toNat / 64 % 8 = a.val → w.toNat / 8 % 8 = b.val → w.toNat % 8 = c.val →
    decode w = i

/-- `oooo x.. xxx BBB CCC`. -/
def encodedBC (op : Nat) (b c : RegIdx) (i : Instr) : Prop :=
  (encode i).toNat = op * 2 ^ 28 + b.val * 8 + c.val ∧
  ∀ w : Word, w.toNat / 2 ^ 28 = op → w.toNat / 8 % 8 = b.val → w.toNat % 8 = c.val → decode w = i

/-- `oooo x.. xxx xxx CCC`. -/
def encodedC (op : Nat) (c : RegIdx) (i : Instr) : Prop :=
  (encode i).toNat = op * 2 ^ 28 + c.val ∧
  ∀ w : Word, w.toNat / 2 ^ 28 = op → w.toNat % 8 = c.val → decode w = i

/-- `oooo x..`. -/
def encodedPlain (op : Nat) (i : Instr) : Prop :=
  (encode i).toNat = op * 2 ^ 28 ∧ ∀ w : Word, w.toNat / 2 ^ 28 = op → decode w = i

/-- `oooo AAA I..`. -/
def encodedLI (op : Nat) (a : RegIdx) (imm : Imm) (i : Instr) : Prop :=
  (encode i).toNat = op * 2 ^ 28 + a.val * 2 ^ 25 + imm.toNat ∧
  ∀ w : Word, w.toNat / 2 ^ 28 = op → w.toNat / 2 ^ 25 % 8 = a.val → w.toNat % 2 ^ 25 = imm.toNat → decode w = i

/-- The canonical word of an assembly line (30_encoding.md R106), every unwritten field 0. -/
def canonicalWord : Instr → Nat
  | .cmov a b c => 0 * 2 ^ 28 + a.val * 64 + b.val * 8 + c.val
  | .sload a b c => 1 * 2 ^ 28 + a.val * 64 + b.val * 8 + c.val
  | .sstore a b c => 2 * 2 ^ 28 + a.val * 64 + b.val * 8 + c.val
  | .add a b c => 3 * 2 ^ 28 + a.val * 64 + b.val * 8 + c.val
  | .mul a b c => 4 * 2 ^ 28 + a.val * 64 + b.val * 8 + c.val
  | .div a b c => 5 * 2 ^ 28 + a.val * 64 + b.val * 8 + c.val
  | .nand a b c => 6 * 2 ^ 28 + a.val * 64 + b.val * 8 + c.val
  | .halt => 7 * 2 ^ 28
  | .map b c => 8 * 2 ^ 28 + b.val * 8 + c.val
  | .unmap c => 9 * 2 ^ 28 + c.val
  | .out c => 10 * 2 ^ 28 + c.val
  | .inp c => 11 * 2 ^ 28 + c.val
  | .loadprog b c => 12 * 2 ^ 28 + b.val * 8 + c.val
  | .loadimm a imm => 13 * 2 ^ 28 + a.val * 2 ^ 25 + imm.toNat
  | .invalid14 => 14 * 2 ^ 28
  | .invalid15 => 15 * 2 ^ 28

/-- The bits of a word that decide its decoding, by opcode (30_encoding.md R99, R101; the opcode table's fields). -/
def usedBits (op : Nat) : Word :=
  if op ≤ 6 then 0xF00001FF
  else if op = 7 then 0xF0000000
  else if op = 8 then 0xF000003F
  else if op ≤ 11 then 0xF0000007
  else if op = 12 then 0xF000003F
  else if op = 13 then 0xFFFFFFFF
  else 0xF0000000

/-- When a step stops with a cause (60_exceptions.md R191 to R193). -/
def memFaultCondition (i : Instr) (s : State) : Prop :=
  match i with
  | .sload _ b c => faultyAddress s.mem (s.reg b) (s.reg c)
  | .sstore a b _ => faultyAddress s.mem (s.reg a) (s.reg b)
  | .unmap c => s.reg c = 0 ∨ segmentAt s.mem (s.reg c) = none
  | .loadprog b _ => s.reg b ≠ 0 ∧ segmentAt s.mem (s.reg b) = none
  | .map _ c => mgrAlloc s.mem (s.reg c) = none
  | .cmov _ _ _ => False
  | .add _ _ _ => False
  | .mul _ _ _ => False
  | .div _ _ _ => False
  | .nand _ _ _ => False
  | .halt => False
  | .out _ => False
  | .inp _ => False
  | .loadimm _ _ => False
  | .invalid14 => False
  | .invalid15 => False

def stopCondition (s : State) : Cause → Prop
  | .fetchOob => ∀ g, segmentAt s.mem 0 = some g → g.len.toNat ≤ s.pc.toNat
  | .memFault => ∃ w, fetch s = some w ∧ memFaultCondition (decode w) s
  | .invalidOpcode => ∃ w, fetch s = some w ∧ 14 ≤ w.toNat / 2 ^ 28
  | .divZero => ∃ w a b c, fetch s = some w ∧ decode w = .div a b c ∧ s.reg c = 0
  | .consoleRange => ∃ w c, fetch s = some w ∧ decode w = .out c ∧ 255 < (s.reg c).toNat

end Sys2Proof.Claims

open Sys2Proof Sys2Proof.Machine Sys2Proof.Claims

/-! ### Encoding -/

/-- 30_encoding.md section 7 (R106, which the spec marks derived): the canonical word, for every row and every operand;
decoding it gives back the instruction, and so does decoding a word that differs from it in ignored bits alone. -/
def Obligations.DecodeOfEncodeIsTheInstruction : Prop :=
  ∀ i : Instr, (encode i).toNat = canonicalWord i ∧ decode (encode i) = i ∧
    ∀ w : Word, w &&& usedBits i.opcode = encode i → decode w = i

/-- 30_encoding.md section 6 (R101, which the spec marks derived): two words decode to the same instruction with the same operands iff they agree on bits 31:28 and on the
bits the format extracts and the instruction uses. -/
def Obligations.WordsDecodeAlikeIffUsedBitsAgree : Prop :=
  ∀ v w : Word, decode v = decode w ↔
    v.toNat / 2 ^ 28 = w.toNat / 2 ^ 28 ∧ v &&& usedBits (v.toNat / 2 ^ 28) = w &&& usedBits (v.toNat / 2 ^ 28)

/-- 30_encoding.md section 5 (R99, which the spec marks derived and D8; log 12): bits 27:9 of format R3 and unused register fields have no effect. -/
def Obligations.IgnoredBitsDoNotChangeTheDecoding : Prop :=
  ∀ w : Word,
    (w.toNat / 2 ^ 28 ≠ 13 → decode w = decode (w &&& (0xF00001FF : Word))) ∧
    decode w = decode (w &&& usedBits (w.toNat / 2 ^ 28))

/-- R97: bits 31:28 alone select the instruction; mask 0xF0000000, match opcode * 2^28. -/
def Obligations.OpcodeFieldAloneSelectsTheInstruction : Prop :=
  (∀ w : Word, (decode w).opcode = w.toNat / 2 ^ 28) ∧
  ∀ i : Instr, (encode i &&& (0xF0000000 : Word)).toNat = i.opcode * 2 ^ 28

/-- 30_encoding.md section 1 (R90): the bit-field function gives the slice, and 0 for width 0. -/
def Obligations.FieldIsTheBitSlice : Prop :=
  ∀ (v : Word) (w lsb : Nat), lsb + w ≤ 32 →
    field v w lsb = (v.extractLsb' lsb w).toNat ∧ field v w lsb < 2 ^ w ∧ field v 0 lsb = 0

/-- A few words of 95_test_vectors.md sections 2.2 and 2.4 (the SSTORE), one family each, decode to what they stand
for. -/
def Obligations.WrittenOutWordsDecode : Prop :=
  decode 0x30000053 = .add 1 2 3 ∧ decode 0x3FFFFE53 = .add 1 2 3 ∧ decode 0x200000A5 = .sstore 2 4 5 ∧
  decode 0x80000013 = .map 2 3 ∧ decode 0xA00001C0 = .out 0 ∧ decode 0xC0000013 = .loadprog 2 3 ∧
  decode 0x7FFFFFFF = .halt ∧ decode 0xD3234567 = .loadimm 1 0x1234567 ∧ decode 0xD00001FF = .loadimm 0 511 ∧
  decode 0xEFFFFFFF = .invalid14 ∧ decode 0xF0000000 = .invalid15

/-! ### Register instructions -/

/-- R120. -/
def Obligations.CmovMovesIffConditionIsNonzero : Prop :=
  ∀ (a b c : RegIdx) (s : State), encodedABC 0 a b c (.cmov a b c) ∧
    ∃ t, exec (.cmov a b c) s = .next t ∧ (s.reg c ≠ 0 → t.reg a = s.reg b) ∧ (s.reg c = 0 → t.reg a = s.reg a) ∧
      writesOnlyReg a s t

/-- R121. -/
def Obligations.AddWritesTheSumModulo : Prop :=
  ∀ (a b c : RegIdx) (s : State), encodedABC 3 a b c (.add a b c) ∧
    ∃ t, exec (.add a b c) s = .next t ∧ (t.reg a).toNat = ((s.reg b).toNat + (s.reg c).toNat) % 2 ^ 32 ∧
      writesOnlyReg a s t

/-- R122. -/
def Obligations.MulWritesTheProductModulo : Prop :=
  ∀ (a b c : RegIdx) (s : State), encodedABC 4 a b c (.mul a b c) ∧
    ∃ t, exec (.mul a b c) s = .next t ∧ (t.reg a).toNat = ((s.reg b).toNat * (s.reg c).toNat) % 2 ^ 32 ∧
      writesOnlyReg a s t

/-- R123. -/
def Obligations.DivWritesTheQuotientOrStops : Prop :=
  ∀ (a b c : RegIdx) (s : State), encodedABC 5 a b c (.div a b c) ∧
    (s.reg c ≠ 0 → ∃ t, exec (.div a b c) s = .next t ∧ (t.reg a).toNat = (s.reg b).toNat / (s.reg c).toNat ∧
      writesOnlyReg a s t) ∧
    (s.reg c = 0 → stopsWith .divZero (.div a b c) s)

/-- R124. -/
def Obligations.NandWritesTheComplementOfTheAnd : Prop :=
  ∀ (a b c : RegIdx) (s : State), encodedABC 6 a b c (.nand a b c) ∧
    ∃ t, exec (.nand a b c) s = .next t ∧ (t.reg a).toNat = 2 ^ 32 - 1 - (s.reg b &&& s.reg c).toNat ∧
      (∀ k < 32, (t.reg a).getLsbD k = !((s.reg b).getLsbD k && (s.reg c).getLsbD k)) ∧ writesOnlyReg a s t

/-- R125. -/
def Obligations.LoadimmWritesTheZeroExtendedLiteral : Prop :=
  ∀ (a : RegIdx) (imm : Imm) (s : State), encodedLI 13 a imm (.loadimm a imm) ∧
    ∃ t, exec (.loadimm a imm) s = .next t ∧ (t.reg a).toNat = imm.toNat ∧ writesOnlyReg a s t

/-- R126: the exact laws of the arithmetic results. -/
def Obligations.ArithmeticIsExactModuloTwoPow32 : Prop :=
  ∀ b c : Word,
    (add32 b c).toNat = (b.toNat + c.toNat) % 2 ^ 32 ∧
    (mul32 b c).toNat = (b.toNat * c.toNat) % 2 ^ 32 ∧
    (c ≠ 0 → (divU32 b c).toNat = b.toNat / c.toNat ∧ (divU32 b c).toNat ≤ b.toNat) ∧
    (∀ (x y z : RegIdx) (s : State), s.reg z = 0 → stopsWith .divZero (.div x y z) s) ∧
    (nand32 b c).toNat = 2 ^ 32 - 1 - (b &&& c).toNat ∧
    (∀ k < 32, (nand32 b c).getLsbD k = !(b.getLsbD k && c.getLsbD k))

/-! ### Segment instructions -/

/-- R140. -/
def Obligations.SloadLoadsTheWordOrStops : Prop :=
  ∀ (a b c : RegIdx) (s : State), encodedABC 1 a b c (.sload a b c) ∧
    (validAddress s.mem (s.reg b) (s.reg c) → ∃ t, exec (.sload a b c) s = .next t ∧
      mgrRead s.mem (s.reg b) (s.reg c) = some (t.reg a) ∧ writesOnlyReg a s t) ∧
    (faultyAddress s.mem (s.reg b) (s.reg c) → stopsWith .memFault (.sload a b c) s)

/-- R141: the address stored to is (x[A], x[B]). -/
def Obligations.SstoreStoresOneWordOrStops : Prop :=
  ∀ (a b c : RegIdx) (s : State), encodedABC 2 a b c (.sstore a b c) ∧
    (validAddress s.mem (s.reg a) (s.reg b) → ∃ t, exec (.sstore a b c) s = .next t ∧
      mgrRead t.mem (s.reg a) (s.reg b) = some (s.reg c) ∧
      (∀ id off, (id ≠ s.reg a ∨ off ≠ s.reg b) → mgrRead t.mem id off = mgrRead s.mem id off) ∧
      (∀ id, (segmentAt t.mem id).map Segment.len = (segmentAt s.mem id).map Segment.len) ∧
      t.mem.free = s.mem.free ∧ t.mem.noStorage = s.mem.noStorage ∧
      keepsRegs s t ∧ advances s t ∧ t.console = s.console) ∧
    (faultyAddress s.mem (s.reg a) (s.reg b) → stopsWith .memFault (.sstore a b c) s)

/-- 41_segment.md section 2 (R142), by log 7 and log 8, which write when the manager can allocate; in every state with a
canonical address space (log 2): the id is the most recently freed one, else one past the
highest handed out; it was not active and is not 0; the segment has x[C] words, all zero. -/
def Obligations.MapMakesAFreshZeroSegment : Prop :=
  ∀ (b c : RegIdx) (s : State), encodedBC 8 b c (.map b c) ∧
    (s.mem.wf → s.mem.noStorage = false → (s.mem.free ≠ [] ∨ s.mem.table.length < Config.maxSegments) →
      ∃ t, exec (.map b c) s = .next t ∧
        (t.reg b).toNat = s.mem.free.headD s.mem.table.length ∧ t.reg b ≠ 0 ∧
        segmentAt s.mem (t.reg b) = none ∧
        (∃ g, segmentAt t.mem (t.reg b) = some g ∧ g.len = s.reg c) ∧
        (∀ off, off.toNat < (s.reg c).toNat → mgrRead t.mem (t.reg b) off = some 0) ∧
        keepsOtherSegments (t.reg b) s t ∧ t.mem.free = s.mem.free.tail ∧ t.mem.noStorage = s.mem.noStorage ∧
        keepsOtherRegs b s t ∧ advances s t ∧ t.console = s.console) ∧
    (mgrAlloc s.mem (s.reg c) = none → stopsWith .memFault (.map b c) s)

/-- R143. -/
def Obligations.UnmapFreesTheIdOrStops : Prop :=
  ∀ (c : RegIdx) (s : State), encodedC 9 c (.unmap c) ∧
    (s.reg c ≠ 0 → segmentAt s.mem (s.reg c) ≠ none → ∃ t, exec (.unmap c) s = .next t ∧
      segmentAt t.mem (s.reg c) = none ∧ (∀ off, mgrRead t.mem (s.reg c) off = none) ∧
      t.mem.free = (s.reg c).toNat :: s.mem.free ∧ t.mem.noStorage = s.mem.noStorage ∧
      keepsOtherSegments (s.reg c) s t ∧ keepsRegs s t ∧ advances s t ∧ t.console = s.console) ∧
    (s.reg c = 0 ∨ segmentAt s.mem (s.reg c) = none → stopsWith .memFault (.unmap c) s)

/-! ### Console instructions -/

/-- R160: the check comes first; a byte goes out when the consumer accepts it (log 5 says how that is written). -/
def Obligations.OutEmitsTheByteOrStops : Prop :=
  ∀ (c : RegIdx) (s : State), encodedC 10 c (.out c) ∧
    ((s.reg c).toNat ≤ 255 → s.console.outReady = true → ∃ t, exec (.out c) s = .next t ∧
      (∃ byte : Byte, byte.toNat = (s.reg c).toNat ∧
        t.console = { s.console with output := s.console.output ++ [byte] }) ∧
      keepsRegs s t ∧ advances s t ∧ keepsMemory s t) ∧
    (255 < (s.reg c).toNat → stopsWith .consoleRange (.out c) s)

/-- 42_console.md section 2 (R161), by log 5, which writes what has arrived at the port and lets a waiting step answer
the same state: a byte is consumed and zero-extended; end of stream gives all ones and consumes nothing; IN cannot
stop. -/
def Obligations.InReadsAByteOrAllOnes : Prop :=
  ∀ (c : RegIdx) (s : State), encodedC 11 c (.inp c) ∧
    (∀ byte rest, s.console.input = byte :: rest → ∃ t, exec (.inp c) s = .next t ∧
      (t.reg c).toNat = byte.toNat ∧ t.console = { s.console with input := rest } ∧
      keepsOtherRegs c s t ∧ advances s t ∧ keepsMemory s t) ∧
    (s.console.input = [] → s.console.inputEnded = true → ∃ t, exec (.inp c) s = .next t ∧
      t.reg c = 0xFFFFFFFF ∧ writesOnlyReg c s t) ∧
    (∃ t, exec (.inp c) s = .next t ∧ t.run = s.run)

/-- 42_console.md section 1 and 70_reset_and_hazards.md R244, by log 5: while a port does not answer, the core waits
and changes nothing; once it answers, the instruction completes. -/
def Obligations.ConsoleWaitsUntilThePortAnswers : Prop :=
  ∀ (c : RegIdx) (s : State),
    ((s.reg c).toNat ≤ 255 → s.console.outReady = false → exec (.out c) s = .next s ∧
      ∃ t, exec (.out c) (consumerReady true s) = .next t ∧ t.pc = s.pc + 1 ∧
        t.console.output.length = s.console.output.length + 1) ∧
    (s.console.input = [] → s.console.inputEnded = false → exec (.inp c) s = .next s ∧
      (∀ byte, ∃ t, exec (.inp c) (inputArrives byte s) = .next t ∧ t.pc = s.pc + 1 ∧
        (t.reg c).toNat = byte.toNat) ∧
      ∃ t, exec (.inp c) (inputEnds s) = .next t ∧ t.pc = s.pc + 1 ∧ t.reg c = 0xFFFFFFFF)

/-! ### Control -/

/-- R170. -/
def Obligations.HaltStopsSuccessfully : Prop :=
  encodedPlain 7 .halt ∧
  ∀ s : State, ∃ t, exec .halt s = .next t ∧ t.run = .halted ∧ statusWord t.run = 1 ∧ t.pc = s.pc ∧
    keepsRegs s t ∧ keepsMemory s t ∧ t.console = s.console

/-- R172. -/
def Obligations.LoadprogReplacesTheProgramAndJumps : Prop :=
  ∀ (b c : RegIdx) (s : State), encodedBC 12 b c (.loadprog b c) ∧
    (s.reg b = 0 → ∃ t, exec (.loadprog b c) s = .next t ∧ t.pc = s.reg c ∧ t.run = s.run ∧
      keepsRegs s t ∧ keepsMemory s t ∧ t.console = s.console) ∧
    (s.reg b ≠ 0 → segmentAt s.mem (s.reg b) ≠ none → ∃ t, exec (.loadprog b c) s = .next t ∧ t.pc = s.reg c ∧
      segmentAt t.mem 0 = segmentAt s.mem (s.reg b) ∧
      (∀ off, mgrRead t.mem 0 off = mgrRead s.mem (s.reg b) off) ∧
      keepsOtherSegments 0 s t ∧ t.mem.free = s.mem.free ∧ t.mem.noStorage = s.mem.noStorage ∧
      keepsRegs s t ∧ t.run = s.run ∧ t.console = s.console) ∧
    (s.reg b ≠ 0 → segmentAt s.mem (s.reg b) = none → stopsWith .memFault (.loadprog b c) s)

/-- R174: opcodes 14 and 15. -/
def Obligations.InvalidOpcodesStop : Prop :=
  encodedPlain 14 .invalid14 ∧ encodedPlain 15 .invalid15 ∧
  ∀ s : State, stopsWith .invalidOpcode .invalid14 s ∧ stopsWith .invalidOpcode .invalid15 s

/-! ### The step -/

/-- 43_control.md section 1 (R176): a running step is `exec` of the decoded word at `pc` of segment 0, with nothing
around it. -/
def Obligations.StepRunsTheDecodedInstruction : Prop :=
  ∀ (s : State) (w : Word), s.run = .running → mgrRead s.mem 0 s.pc = some w → step s = exec (decode w) s

/-- R53: the fetch reads word `pc` of segment 0; out of bounds it stops with FETCH_OOB, and only there. -/
def Obligations.FetchStopsExactlyOutOfBounds : Prop :=
  ∀ (s : State) (g : Segment), s.run = .running → segmentAt s.mem 0 = some g →
    (s.pc.toNat < g.len.toNat → ∃ w t, mgrRead s.mem 0 s.pc = some w ∧ step s = exec (decode w) s ∧
      step s = .next t ∧ t.run ≠ .stopped .fetchOob) ∧
    (g.len.toNat ≤ s.pc.toNat → ∃ t, step s = .next t ∧ stoppedFrom .fetchOob s t)

/-- 60_exceptions.md section 5 (R198), by log 9: HALTED and STOPPED are absorbing; only reset leaves them. -/
def Obligations.EndedRunsStayAsTheyAre : Prop :=
  ∀ s : State, s.run ≠ .running →
    (∀ k, core.run k s = .next s) ∧
    ∀ b, progWellFormed b.prog = true → ∃ t, hostReset s (some b) = .next t ∧ t.run = .running

/-- R195: a step that stops abnormally changes nothing but `run`. -/
def Obligations.StopsArePrecise : Prop :=
  ∀ (s t : State) (cause : Cause), s.run = .running → step s = .next t → t.run = .stopped cause →
    stoppedFrom cause s t ∧ t = s.setRun (.stopped cause)

/-- 60_exceptions.md sections 2 and 3 (R191 to R193, and R199, which the spec marks derived), by log 7 and log 8 for MAP:
a running step stops with a cause exactly when that cause's condition holds, and at most one does. -/
def Obligations.StepStopsExactlyOnItsCondition : Prop :=
  ∀ s : State, s.run = .running → ∃ t, step s = .next t ∧
    (∀ cause, t.run = .stopped cause ↔ stopCondition s cause) ∧
    (∀ cause cause', stopCondition s cause → stopCondition s cause' → cause = cause')

/-- 10_state.md section 3 (R25): `pc` after a step; by log 5 a step of OUT or IN that only waits changes nothing. -/
def Obligations.PcAfterEachStep : Prop :=
  ∀ s t : State, s.run = .running → step s = .next t →
    (t.run ≠ .running → t.pc = s.pc) ∧
    (t.run = .running → ∃ w, fetch s = some w ∧
      ((∃ b c, decode w = .loadprog b c ∧ t.pc = s.reg c) ∨
       ((∀ b c, decode w ≠ .loadprog b c) ∧ decode w ≠ .halt ∧ t.pc = s.pc + 1) ∨
       (∃ c, (decode w = .out c ∨ decode w = .inp c) ∧ t = s)))

/-- 10_state.md section 3 (R26, which the spec marks derived): where an instruction can be fetched, `pc + 1` does not wrap around. -/
def Obligations.PcIncrementNeverWraps : Prop :=
  ∀ (s : State) (w : Word), fetch s = some w → (s.pc + 1).toNat = s.pc.toNat + 1

/-- 60_exceptions.md section 1 (R190): HALT alone ends a run with success, and it does so wherever it is fetched. -/
def Obligations.OnlyHaltEndsARunWithSuccess : Prop :=
  ∀ s t : State, s.run = .running → step s = .next t → (t.run = .halted ↔ ∃ w, fetch s = some w ∧ decode w = .halt)

/-- 70_reset_and_hazards.md section 4 (R244), by log 5 (a waiting step answers the same state) and log 9 (so does an
ended core): every run of steps goes on; no step ends in a fault or a refusal. -/
def Obligations.EveryRunOfStepsGoesOn : Prop :=
  ∀ (k : Nat) (s : State), ∃ t, core.run k s = .next t

/-! ### Whole-machine rules -/

/-- R22: an instruction writes no register its row does not list, and a register its row does not list as read
changes nothing it does: that register itself is either left alone or written with the same value. -/
def Obligations.InstructionsReadAndWriteOnlyTheirRegisters : Prop :=
  ∀ (i : Instr) (s t : State), exec i s = .next t →
    (∀ r, r ∉ writesOf i s → t.reg r = s.reg r) ∧
    ∀ r v, r ∉ readsOf i s → ∃ u, exec i (s.setReg r v) = .next u ∧ u.pc = t.pc ∧ u.run = t.run ∧ u.mem = t.mem ∧
      u.console = t.console ∧ (∀ q, q ≠ r → u.reg q = t.reg q) ∧
      (u.reg r = t.reg r ∨ (u.reg r = v ∧ t.reg r = s.reg r))

/-- 20_memory.md section 2 (R54): the memory an instruction leaves is the answer to its one request; a fault answer ends it. -/
def Obligations.MemoryChangesOnlyByTheListedRequest : Prop :=
  ∀ (i : Instr) (s t : State), exec i s = .next t →
    (requestOf i s = none → t.mem = s.mem) ∧
    (∀ q, requestOf i s = some q → answer s.mem q = none → stoppedFrom .memFault s t) ∧
    (∀ q m, requestOf i s = some q → answer s.mem q = some m → t.mem = m ∧ t.run = s.run)

/-- 20_memory.md section 1 (R51): a segment's length never changes while its id stays active; only LOADPROG exchanges segment 0. -/
def Obligations.SegmentLengthsNeverChange : Prop :=
  ∀ (s t : State) (id : Word) (g g' : Segment), s.run = .running → step s = .next t →
    segmentAt s.mem id = some g → segmentAt t.mem id = some g' →
    (id ≠ 0 ∨ ∀ w b c, fetch s = some w → decode w ≠ .loadprog b c) → s.mem.wf → g'.len = g.len

/-- 42_console.md section 1 (R162): a step emits at most one byte, after those emitted before, and only by OUT; it takes at most one input
byte, the first, and only by IN. -/
def Obligations.ConsoleStreamsAreInProgramOrder : Prop :=
  ∀ s t : State, s.run = .running → step s = .next t →
    (t.console.output = s.console.output ∨
      ∃ w c byte, fetch s = some w ∧ decode w = .out c ∧ (s.reg c).toNat = byte.toNat ∧
        t.console.output = s.console.output ++ [byte]) ∧
    (t.console.input = s.console.input ∨
      ∃ w c byte, fetch s = some w ∧ decode w = .inp c ∧ s.console.input = byte :: t.console.input ∧
        (t.reg c).toNat = byte.toNat)

/-- 42_console.md section 1 (R163), by log 5: end of stream is permanent. -/
def Obligations.EndOfStreamIsPermanent : Prop :=
  ∀ (k : Nat) (s t : State), s.console.input = [] → s.console.inputEnded = true → core.run k s = .next t →
    t.console.input = [] ∧ t.console.inputEnded = true ∧
    (∀ byte, inputArrives byte t = t) ∧
    ∀ c, ∃ u, exec (.inp c) t = .next u ∧ u.reg c = 0xFFFFFFFF

/-! ### Memory -/

/-- 20_memory.md section 3 (R57, R65), by the canonical form of log 2: every step keeps the invariant of the address
space. -/
def Obligations.StepKeepsTheAddressSpaceInvariant : Prop :=
  ∀ s t : State, Safety.Inv s → step s = .next t → Safety.Inv t

/-- 10_state.md section 9 (R33) and 20_memory.md section 3 (R56): the invariant, whose canonical form is log 2's, holds
of `State.reset` with the empty program of log 3, and after every boot of a program that fits. -/
def Obligations.ResetMeetsTheAddressSpaceInvariant : Prop :=
  Safety.Inv State.reset ∧ ∀ b, progWellFormed b.prog = true → Safety.Inv (boot b)

/-- R56: after `initialize`, segment 0 holds `PROG`, no other id is active and the free-id pool is empty. -/
def Obligations.InitInstallsTheProgram : Prop :=
  ∀ prog : List Word, prog.length < 2 ^ 32 →
    (∀ off : Word, mgrRead (mgrInit prog) 0 off = prog[off.toNat]?) ∧
    (∀ id : Word, id ≠ 0 → segmentAt (mgrInit prog) id = none) ∧
    (mgrInit prog).free = [] ∧
    ∃ g, segmentAt (mgrInit prog) 0 = some g ∧ g.len.toNat = prog.length

/-- 20_memory.md section 3 (R58) and 95_test_vectors.md S4: MAP, UNMAP of that id, MAP gives the same id again; a MAP
before the UNMAP gives another. -/
def Obligations.MapUnmapMapReturnsTheSameId : Prop :=
  ∀ (b b' c d : RegIdx) (s s1 s2 s3 s2' : State), s.mem.wf →
    exec (.map b c) s = .next s1 → s1.run = s.run → s.run = .running →
    (exec (.unmap b) s1 = .next s2 → exec (.map b' d) s2 = .next s3 → s3.run = .running →
      s3.reg b' = s1.reg b) ∧
    (exec (.map b' d) s1 = .next s2' → s2'.run = .running → s2'.reg b' ≠ s1.reg b)

/-- R79: after REPLACE0 the two segments are independent. -/
def Obligations.ReplacedProgramIsACopy : Prop :=
  ∀ (m m' : Memory) (id : Word), id ≠ 0 → mgrReplace0 m id = some m' →
    (∀ off v m'', mgrWrite m' id off v = some m'' → ∀ k, mgrRead m'' 0 k = mgrRead m' 0 k) ∧
    (∀ off v m'', mgrWrite m' 0 off v = some m'' → ∀ k, mgrRead m'' id k = mgrRead m' id k) ∧
    (∃ m'', mgrFree m' id = some m'' ∧ ∀ k, mgrRead m'' 0 k = mgrRead m' 0 k)

/-- R77: a word stored into segment 0 is the word fetched the next time `pc` is there; after a LOADPROG with a
non-zero id the next fetch reads the new segment 0 at the new `pc`; a store to the running word does not change the
instruction in execution. -/
def Obligations.StoredProgramWordsAreFetched : Prop :=
  (∀ (a b c : RegIdx) (s t u : State), s.run = .running → s.reg a = 0 → exec (.sstore a b c) s = .next t →
    t.run = .running → u.run = .running → u.mem = t.mem → u.pc = s.reg b → step u = exec (decode (s.reg c)) u) ∧
  (∀ (b c : RegIdx) (s t : State), s.reg b ≠ 0 → s.run = .running → exec (.loadprog b c) s = .next t →
    t.run = .running → fetch t = mgrRead s.mem (s.reg b) (s.reg c)) ∧
  (∀ (a b c : RegIdx) (s t : State) (w : Word), s.run = .running → fetch s = some w → decode w = .sstore a b c →
    s.reg a = 0 → s.reg b = s.pc → step s = .next t → t.pc = s.pc + 1 ∧ t.run = .running ∧
      mgrRead t.mem 0 s.pc = some (s.reg c))

/-- 20_memory.md section 3 (R65), by log 7 and log 8: ALLOC faults exactly where the environment has no storage, or
no id below 2^32 is left. -/
def Obligations.AllocFaultsOnlyForWantOfStorageOrIds : Prop :=
  ∀ (m : Memory) (len : Word),
    mgrAlloc m len = none ↔ m.noStorage = true ∨ (m.free = [] ∧ 2 ^ 32 ≤ m.table.length)

/-! ### The host's side -/

/-- R230: reset leaves the values of 10_state.md R33, and the first step fetches word 0 of segment 0. -/
def Obligations.ResetLeavesTheStatedValues : Prop :=
  ∀ (s : State) (b : Boot), progWellFormed b.prog = true → ∃ t, hostReset s (some b) = .next t ∧
    (∀ r, t.reg r = 0) ∧ t.pc = 0 ∧ t.run = .running ∧ statusWord t.run = 0 ∧ fetch t = b.prog[0]?

/-- R231: reset works from every state and depends on none of it; without a re-initialised environment it is
refused. -/
def Obligations.ResetNeedsAFreshEnvironment : Prop :=
  ∀ s s' : State, hostReset s none = .refused .coreResetAlone ∧
    ∀ b, hostReset s (some b) = hostReset s' (some b) ∧
      (b.prog.length < 2 ^ 32 → ∃ t, hostReset s (some b) = .next t ∧ t.mem = mgrInit b.prog ∧
        t.console.output = [] ∧ t.console.input = b.input ∧ t.console.inputEnded = b.inputEnded)

/-- 10_state.md section 5 (R29): the fields of `STATUS`. -/
def Obligations.StatusRegisterFields : Prop :=
  (statusWord .running).toNat = 0 ∧ (statusWord .halted).toNat = 1 ∧
  (statusWord (.stopped .fetchOob)).toNat = 2 + 4 * 1 ∧ (statusWord (.stopped .memFault)).toNat = 2 + 4 * 2 ∧
  (statusWord (.stopped .invalidOpcode)).toNat = 2 + 4 * 3 ∧ (statusWord (.stopped .divZero)).toNat = 2 + 4 * 4 ∧
  (statusWord (.stopped .consoleRange)).toNat = 2 + 4 * 5 ∧
  ∀ run : RunState, (statusWord run).toNat / 32 = 0 ∧
    ((statusWord run).toNat / 4 % 8 ≠ 0 ↔ (statusWord run).toNat % 4 = 2) ∧ (statusWord run).toNat % 4 ≠ 3

/-- R204: the host's exit status. -/
def Obligations.ExitStatusOfAFinishedRun : Prop :=
  exitStatus .halted = some 0 ∧ exitStatus (.stopped .fetchOob) = some 1 ∧ exitStatus .running = none ∧
  ∃ n, n ≠ 0 ∧ ∀ cause, cause ≠ .fetchOob → exitStatus (.stopped cause) = some n

/-- 20_memory.md section 4 (R67): a program file is read in groups of four bytes, most significant first; a length
that is no multiple of 4 is no program. -/
def Obligations.ProgramFileIsBigEndian : Prop :=
  ∀ file : List Byte,
    (file.length % 4 = 0 → ∃ prog, wordsOfFile file = .ok prog ∧ prog.length = file.length / 4 ∧
      ∀ (n : Nat) (w : Word), prog[n]? = some w → ∃ b0 b1 b2 b3 : Byte,
        file[4 * n]? = some b0 ∧ file[4 * n + 1]? = some b1 ∧ file[4 * n + 2]? = some b2 ∧
        file[4 * n + 3]? = some b3 ∧
        w.toNat = b0.toNat * 2 ^ 24 + b1.toNat * 2 ^ 16 + b2.toNat * 2 ^ 8 + b3.toNat) ∧
    (file.length % 4 ≠ 0 → wordsOfFile file = .error .truncatedWord)

/-- 43_control.md section 1 (R173), by log 9 (an ended core steps to itself): a run that has ended, and no other, has a
result, the run state with its cause and the bytes emitted; its exit status is collected with it, and every word of
every segment is visible; all of it stays so however many steps follow. -/
def Obligations.ResultOfAFinishedRun : Prop :=
  ∀ s : State,
    (s.run = .running → runResult s = none ∧ collect s = none ∧ (statusPort s).segments = none) ∧
    (s.run ≠ .running → ∀ (k : Nat) (t : State), core.run k s = .next t →
      runResult t = some { run := s.run, output := s.console.output } ∧
      (∃ code, exitStatus s.run = some code ∧
        collect t = some ({ run := s.run, output := s.console.output }, code)) ∧
      (statusPort t).status = statusWord s.run ∧ (statusPort t).pc = s.pc ∧ (statusPort t).regs = s.regs ∧
      ∀ id off, viewedWord (statusPort t) id off = mgrRead s.mem id off)
end

