-- ==== Sys2Proof/Laws/Cells.lean ====
section
/-! SUPPORT. The words of a segment: reading after writing, and that a write keeps the canonical form. -/

namespace Sys2Proof.Machine

theorem cellRead_erase_same (cells : List Cell) (k : Nat) : cellRead (cellErase cells k) k = Config.freshWord := by
  induction cells with
  | nil => rfl
  | cons c rest ih =>
    obtain ⟨a, w⟩ := c
    by_cases h : a = k <;> simp [cellErase, cellRead, h, ih]

theorem cellRead_erase_other {j k : Nat} (h : j ≠ k) (cells : List Cell) :
    cellRead (cellErase cells k) j = cellRead cells j := by
  induction cells with
  | nil => rfl
  | cons c rest ih =>
    obtain ⟨a, w⟩ := c
    by_cases hk : a = k
    · subst hk; simp [cellErase, cellRead, ih, Ne.symm h]
    · simp [cellErase, cellRead, hk, ih]

theorem cellRead_insert_same (cells : List Cell) (k : Nat) (v : Word) : cellRead (cellInsert cells k v) k = v := by
  induction cells with
  | nil => simp [cellInsert, cellRead]
  | cons c rest ih =>
    obtain ⟨a, w⟩ := c
    simp only [cellInsert]
    split
    · simp [cellRead]
    · split
      · simp [cellRead]
      · rename_i h1 h2; simp [cellRead, Ne.symm h2, ih]

theorem cellRead_insert_other {j k : Nat} (h : j ≠ k) (cells : List Cell) (v : Word) :
    cellRead (cellInsert cells k v) j = cellRead cells j := by
  induction cells with
  | nil => simp [cellInsert, cellRead, Ne.symm h]
  | cons c rest ih =>
    obtain ⟨a, w⟩ := c
    simp only [cellInsert]
    split
    · simp [cellRead, Ne.symm h]
    · split
      · rename_i h1 h2; subst h2; simp [cellRead, Ne.symm h]
      · simp [cellRead, ih]

/-- A read gives the word last written there. -/
@[simp] theorem cellRead_write_same (cells : List Cell) (k : Nat) (v : Word) :
    cellRead (cellWrite cells k v) k = v := by
  by_cases h : v = Config.freshWord
  · simp [cellWrite, h, cellRead_erase_same]
  · simp [cellWrite, h, cellRead_insert_same]

/-- A write leaves every other word alone. -/
theorem cellRead_write_other {j k : Nat} (h : j ≠ k) (cells : List Cell) (v : Word) :
    cellRead (cellWrite cells k v) j = cellRead cells j := by
  by_cases hv : v = Config.freshWord
  · simp [cellWrite, hv, cellRead_erase_other h]
  · simp [cellWrite, hv, cellRead_insert_other h]

theorem cellsWf_cons {lo hi k : Nat} {v : Word} {rest : List Cell} :
    cellsWf lo hi ((k, v) :: rest) = true ↔
      lo ≤ k ∧ k < hi ∧ v ≠ Config.freshWord ∧ cellsWf (k + 1) hi rest = true := by
  simp [cellsWf, and_assoc]

/-- The canonical form from an offset holds from every lower one. -/
theorem cellsWf_mono {lo lo' hi : Nat} (h : lo' ≤ lo) {cells : List Cell} (hw : cellsWf lo hi cells = true) :
    cellsWf lo' hi cells = true := by
  cases cells with
  | nil => rfl
  | cons c rest =>
    obtain ⟨k, v⟩ := c
    rw [cellsWf_cons] at hw ⊢
    exact ⟨by omega, hw.2⟩

/-- The canonical form survives a longer segment. -/
theorem cellsWf_grow {lo hi hi' : Nat} (h : hi ≤ hi') {cells : List Cell} (hw : cellsWf lo hi cells = true) :
    cellsWf lo hi' cells = true := by
  induction cells generalizing lo with
  | nil => rfl
  | cons c rest ih =>
    obtain ⟨k, v⟩ := c
    rw [cellsWf_cons] at hw ⊢
    exact ⟨hw.1, by omega, hw.2.2.1, ih hw.2.2.2⟩

theorem cellsWf_erase {lo hi : Nat} (k : Nat) {cells : List Cell} (hw : cellsWf lo hi cells = true) :
    cellsWf lo hi (cellErase cells k) = true := by
  induction cells generalizing lo with
  | nil => rfl
  | cons c rest ih =>
    obtain ⟨a, v⟩ := c
    rw [cellsWf_cons] at hw
    by_cases ha : a = k
    · simpa [cellErase, ha] using cellsWf_mono (by omega) (ih hw.2.2.2)
    · simp only [cellErase, ha, if_false]
      exact cellsWf_cons.2 ⟨hw.1, hw.2.1, hw.2.2.1, ih hw.2.2.2⟩

theorem cellsWf_insert {lo hi k : Nat} {v : Word} (hlo : lo ≤ k) (hhi : k < hi) (hv : v ≠ Config.freshWord)
    {cells : List Cell} (hw : cellsWf lo hi cells = true) : cellsWf lo hi (cellInsert cells k v) = true := by
  induction cells generalizing lo with
  | nil => simp [cellInsert, cellsWf, hlo, hhi, hv]
  | cons c rest ih =>
    obtain ⟨a, w⟩ := c
    rw [cellsWf_cons] at hw
    simp only [cellInsert]
    split
    · rw [cellsWf_cons, cellsWf_cons]; exact ⟨hlo, hhi, hv, by omega, hw.2.1, hw.2.2.1, hw.2.2.2⟩
    · split
      · rename_i h1 h2; subst h2; rw [cellsWf_cons]; exact ⟨hlo, hhi, hv, hw.2.2.2⟩
      · rw [cellsWf_cons]; exact ⟨hw.1, hw.2.1, hw.2.2.1, ih (by omega) hw.2.2.2⟩

/-- A write inside the segment keeps the canonical form. -/
theorem cellsWf_write {lo hi k : Nat} (hlo : lo ≤ k) (hhi : k < hi) (v : Word) {cells : List Cell}
    (hw : cellsWf lo hi cells = true) : cellsWf lo hi (cellWrite cells k v) = true := by
  unfold cellWrite
  split
  · exact cellsWf_erase k hw
  · rename_i h; exact cellsWf_insert hlo hhi h hw

/-- The words of a list, listed from an offset, are in canonical form. -/
theorem cellsWf_from (off : Nat) (ws : List Word) {hi : Nat} (h : off + ws.length ≤ hi) :
    cellsWf off hi (cellsFrom off ws) = true := by
  induction ws generalizing off with
  | nil => rfl
  | cons w rest ih =>
    simp only [List.length_cons] at h
    have hr := ih (off + 1) (by omega)
    simp only [cellsFrom]
    split
    · exact cellsWf_mono (by omega) hr
    · rename_i hv; rw [cellsWf_cons]; exact ⟨by omega, by omega, hv, hr⟩

theorem cellRead_from_below {off k : Nat} (h : k < off) (ws : List Word) :
    cellRead (cellsFrom off ws) k = Config.freshWord := by
  induction ws generalizing off with
  | nil => rfl
  | cons w rest ih =>
    simp only [cellsFrom]
    split
    · exact ih (by omega)
    · have : off ≠ k := by omega
      simp [cellRead, this, ih (show k < off + 1 by omega)]

/-- The words of a list read back in their places. -/
theorem cellRead_from (off k : Nat) (ws : List Word) (h : k < ws.length) :
    cellRead (cellsFrom off ws) (off + k) = ws[k] := by
  induction ws generalizing off k with
  | nil => simp at h
  | cons w rest ih =>
    cases k with
    | zero =>
      simp only [cellsFrom]
      split
      · rename_i hw; simp [cellRead_from_below (show off < off + 1 by omega), hw]
      · simp [cellRead]
    | succ k =>
      have hk : k < rest.length := by simpa using h
      have hr := ih (off + 1) k hk
      have e : off + (k + 1) = off + 1 + k := by omega
      simp only [cellsFrom]
      split
      · rw [e, hr]; rfl
      · have hne : off ≠ off + 1 + k := by omega
        rw [e]; simp [cellRead, hne, hr]

end Sys2Proof.Machine
end

