-- ==== Sys2Proof/Laws/Codec.lean ====
section
/-! SUPPORT. The fields of a canonical word. -/

namespace Sys2Proof

theorem field_lt (v : Word) (w lsb : Nat) : field v w lsb < 2 ^ w := Nat.mod_lt _ (Nat.two_pow_pos w)

theorem wordR3_toNat {op : Nat} (h : op < 16) (a b c : RegIdx) :
    (wordR3 op a b c).toNat = op * 2 ^ 28 + a.val * 64 + b.val * 8 + c.val := by
  have := a.isLt; have := b.isLt; have := c.isLt
  simp only [wordR3, BitVec.toNat_ofNat]; omega

theorem wordLI_toNat {op : Nat} (h : op < 16) (a : RegIdx) (imm : Imm) :
    (wordLI op a imm.toNat).toNat = op * 2 ^ 28 + a.val * 2 ^ 25 + imm.toNat := by
  have := a.isLt; have := imm.isLt
  simp only [wordLI, BitVec.toNat_ofNat]; omega

theorem opcode_wordR3 {op : Nat} (h : op < 16) (a b c : RegIdx) : field (wordR3 op a b c) 4 28 = op := by
  have := a.isLt; have := b.isLt; have := c.isLt
  rw [field, wordR3_toNat h]; omega

theorem opcode_wordLI {op : Nat} (h : op < 16) (a : RegIdx) (imm : Imm) :
    field (wordLI op a imm.toNat) 4 28 = op := by
  have := a.isLt; have := imm.isLt
  rw [field, wordLI_toNat h]; omega

/-- The opcode field is the top four bits. -/
theorem field_opcode (w : Word) : field w 4 28 = w.toNat / 2 ^ 28 := by
  have := w.isLt
  simp only [field]; omega

/-- A register field by its value. -/
theorem regField_eq {w : Word} {lsb : Nat} {a : RegIdx} (h : w.toNat / 2 ^ lsb % 8 = a.val) : regField w lsb = a := by
  apply Fin.ext
  simpa [regField, field] using h

/-- The opcode bits of a word, kept in place. -/
theorem toNat_and_opcodeBits (w : Word) : (w &&& (0xF0000000 : Word)).toNat = w.toNat / 2 ^ 28 * 2 ^ 28 := by
  have h : w &&& (0xF0000000 : Word) = (w >>> 28) <<< 28 := by
    ext i hi
    interval_cases i <;> simp
  have := w.isLt
  rw [h, BitVec.toNat_shiftLeft, BitVec.toNat_ushiftRight, Nat.shiftLeft_eq, Nat.shiftRight_eq_div_pow]
  omega

/-- The low bits of a word. -/
theorem toNat_and_lowBits (w : Word) {n : Nat} (hn : n ≤ 28) : (w &&& BitVec.ofNat 32 (2 ^ n - 1)).toNat = w.toNat % 2 ^ n := by
  have : 2 ^ n ≤ 2 ^ 28 := Nat.pow_le_pow_right (by decide) hn
  rw [BitVec.toNat_and, BitVec.toNat_ofNat, Nat.mod_eq_of_lt (by omega), Nat.and_two_pow_sub_one_eq_mod]

/-- The opcode bits and some low bits of a word, kept in place (30_encoding.md R99). -/
theorem toNat_and_opcodeAndLowBits (w : Word) {n : Nat} (hn : n ≤ 28) :
    (w &&& ((0xF0000000 : Word) ||| BitVec.ofNat 32 (2 ^ n - 1))).toNat = w.toNat / 2 ^ 28 * 2 ^ 28 + w.toNat % 2 ^ n := by
  rw [show w &&& ((0xF0000000 : Word) ||| BitVec.ofNat 32 (2 ^ n - 1)) = (w &&& (0xF0000000 : Word)) ||| (w &&& BitVec.ofNat 32 (2 ^ n - 1)) from by
    ext i hi; simp [Bool.and_or_distrib_left]]
  rw [BitVec.toNat_or, toNat_and_opcodeBits, toNat_and_lowBits w hn, ← Nat.shiftLeft_eq, Nat.shiftLeft_add_eq_or_of_lt]
  exact lt_of_lt_of_le (Nat.mod_lt _ (Nat.two_pow_pos n)) (Nat.pow_le_pow_right (by decide) hn)

end Sys2Proof
end

