-- ==== Sys2Proof/Laws/Memory.lean ====
section
/-! SUPPORT. The Segment Memory Manager: one lemma per request saying what an `ok` answer leaves, and that every
request keeps the canonical form of memory. -/

namespace Sys2Proof.Machine

/-! ### Slots -/

theorem segmentAt_eq_some {m : Memory} {id : Word} {g : Segment} :
    segmentAt m id = some g ↔ m.table[id.toNat]? = some (some g) := by
  simp [segmentAt, Option.join_eq_some_iff]

theorem segmentFor_eq_some {m : Memory} {id off : Word} {g : Segment} :
    segmentFor m id off = some g ↔ segmentAt m id = some g ∧ off.toNat < g.len.toNat := by
  unfold segmentFor
  cases h : segmentAt m id with
  | none => simp
  | some g' =>
    by_cases hl : off.toNat < g'.len.toNat
    · simp only [hl, if_true, Option.some.injEq]
      exact ⟨fun e => ⟨e, e ▸ hl⟩, fun e => e.1⟩
    · simp only [hl, if_false, Option.some.injEq]
      exact ⟨fun e => (by simp at e), fun e => absurd (e.1 ▸ e.2) hl⟩

theorem segmentAt_lt {m : Memory} {id : Word} {g : Segment} (h : segmentAt m id = some g) :
    id.toNat < m.table.length := by
  rw [segmentAt_eq_some] at h
  exact (List.getElem?_eq_some_iff.1 h).1

/-- Installing a segment at an id handed out before: that id holds it, every other id is as it was. -/
theorem segmentAt_put {m : Memory} {k : Nat} {g : Segment} (hk : k < m.table.length) (id : Word) :
    segmentAt (putSegment m k g) id = if id.toNat = k then some g else segmentAt m id := by
  unfold segmentAt putSegment
  by_cases h : id.toNat = k
  · subst h; simp [hk]
  · simp [h, Ne.symm h]

@[simp] theorem putSegment_free (m : Memory) (k : Nat) (g : Segment) : (putSegment m k g).free = m.free := rfl
@[simp] theorem putSegment_noStorage (m : Memory) (k : Nat) (g : Segment) :
    (putSegment m k g).noStorage = m.noStorage := rfl

/-- Installing a canonical segment over an active id keeps the canonical form. -/
theorem wf_put {m : Memory} {k : Nat} {g g' : Segment} (h : m.wf) (hk : m.table[k]? = some (some g'))
    (hg : g.wf = true) : (putSegment m k g).wf := by
  obtain ⟨h0, hs, hl, hn, hf, ha⟩ := h
  have hlt : k < m.table.length := (List.getElem?_eq_some_iff.1 hk).1
  refine ⟨?_, ?_, ?_, hn, ?_, ?_⟩
  · by_cases e : k = 0
    · subst e; simp [putSegment, hlt]
    · simpa [putSegment, List.getElem?_set, e] using h0
  · intro slot hm
    rcases List.mem_or_eq_of_mem_set hm with hm | rfl
    · exact hs slot hm
    · exact hg
  · simpa [putSegment] using hl
  · intro id hid
    have hne : k ≠ id := by rintro rfl; simp [hf k hid] at hk
    simpa [putSegment, List.getElem?_set, hne] using hf id hid
  · intro id hid hnone
    by_cases hne : k = id
    · subst hne; simp [putSegment, hlt] at hnone
    · simp only [putSegment, List.length_set] at hid
      exact ha id hid (by simpa [putSegment, List.getElem?_set, hne] using hnone)

theorem segment_wf_of_slot {m : Memory} (h : m.wf) {k : Nat} {g : Segment} (hk : m.table[k]? = some (some g)) :
    g.wf = true :=
  h.2.1 (some g) (List.mem_of_getElem? hk)

theorem freshSegment_wf (len : Word) : (freshSegment len).wf = true := rfl

theorem segmentOfWords_wf {ws : List Word} (h : ws.length < Config.progLenBound) : (segmentOfWords ws).wf = true := by
  have : (BitVec.ofNat 32 ws.length).toNat = ws.length := by
    simp only [BitVec.toNat_ofNat]; exact Nat.mod_eq_of_lt (by simpa [Config.progLenBound] using h)
  simp only [Segment.wf, segmentOfWords, this]
  exact cellsWf_from 0 ws (by omega)

/-! ### READ and WRITE -/

theorem mgrRead_eq_some {m : Memory} {id off v : Word} :
    mgrRead m id off = some v ↔
      ∃ g, segmentAt m id = some g ∧ off.toNat < g.len.toNat ∧ v = cellRead g.cells off.toNat := by
  unfold mgrRead
  cases h : segmentFor m id off with
  | none =>
    refine ⟨fun e => by simp at e, fun ⟨g, h1, h2, _⟩ => ?_⟩
    simp [segmentFor_eq_some.2 ⟨h1, h2⟩] at h
  | some g =>
    have hg := segmentFor_eq_some.1 h
    constructor
    · intro e; exact ⟨g, hg.1, hg.2, by simpa using e.symm⟩
    · rintro ⟨g', h1, _, rfl⟩; rw [hg.1] at h1; cases h1; rfl

theorem mgrRead_eq_none {m : Memory} {id off : Word} :
    mgrRead m id off = none ↔ ∀ g, segmentAt m id = some g → g.len.toNat ≤ off.toNat := by
  rw [← not_iff_not]
  constructor
  · intro h hall
    obtain ⟨v, hv⟩ := Option.ne_none_iff_exists'.1 h
    obtain ⟨g, h1, h2, _⟩ := mgrRead_eq_some.1 hv
    exact absurd (hall g h1) (by omega)
  · intro h hnone
    push Not at h
    obtain ⟨g, h1, h2⟩ := h
    simp [mgrRead_eq_some.2 ⟨g, h1, h2, rfl⟩] at hnone

/-- What an accepted WRITE leaves: the segment with that one word changed. -/
theorem mgrWrite_eq_some {m m' : Memory} {id off v : Word} :
    mgrWrite m id off v = some m' ↔
      ∃ g, segmentAt m id = some g ∧ off.toNat < g.len.toNat ∧
        m' = putSegment m id.toNat { g with cells := cellWrite g.cells off.toNat v } := by
  unfold mgrWrite
  cases h : segmentFor m id off with
  | none =>
    refine ⟨fun e => by simp at e, fun ⟨g, h1, h2, _⟩ => ?_⟩
    simp [segmentFor_eq_some.2 ⟨h1, h2⟩] at h
  | some g =>
    have hg := segmentFor_eq_some.1 h
    constructor
    · intro e; exact ⟨g, hg.1, hg.2, by simpa using e.symm⟩
    · rintro ⟨g', h1, _, rfl⟩; rw [hg.1] at h1; cases h1; rfl

/-- A WRITE faults exactly where a READ does. -/
theorem mgrWrite_eq_none {m : Memory} {id off v : Word} :
    mgrWrite m id off v = none ↔ mgrRead m id off = none := by
  unfold mgrWrite mgrRead
  cases segmentFor m id off <;> simp

/-- Equal segments read alike. -/
theorem mgrRead_of_segmentAt {m m' : Memory} {id id' : Word} (h : segmentAt m' id' = segmentAt m id) (off : Word) :
    mgrRead m' id' off = mgrRead m id off := by
  unfold mgrRead segmentFor; rw [h]

/-- The segments after an accepted WRITE: only the addressed one changes, and not its length. -/
theorem segmentAt_mgrWrite {m m' : Memory} {id off v : Word} (e : mgrWrite m id off v = some m') (j : Word) :
    segmentAt m' j =
      if j = id then (segmentAt m id).map fun g => { g with cells := cellWrite g.cells off.toNat v }
      else segmentAt m j := by
  obtain ⟨g, h1, _, rfl⟩ := mgrWrite_eq_some.1 e
  rw [segmentAt_put (segmentAt_lt h1), h1]
  simp [BitVec.toNat_inj]

/-- A READ after an accepted WRITE: the word written at its address, every other word as before. -/
theorem mgrRead_mgrWrite {m m' : Memory} {id off v : Word} (e : mgrWrite m id off v = some m') (j k : Word) :
    mgrRead m' j k = if j = id ∧ k = off then some v else mgrRead m j k := by
  obtain ⟨g, h1, h2, _⟩ := mgrWrite_eq_some.1 e
  by_cases hj : j = id
  · subst hj
    have hseg := segmentAt_mgrWrite e j
    simp only [if_true, h1, Option.map_some] at hseg
    unfold mgrRead segmentFor
    rw [hseg, h1]
    by_cases hk : k = off
    · subst hk; simp [h2]
    · have hk' : k.toNat ≠ off.toNat := fun e => hk (BitVec.eq_of_toNat_eq e)
      by_cases hl : k.toNat < g.len.toNat <;> simp [hk, hl, cellRead_write_other hk']
  · rw [if_neg fun e => hj e.1]
    exact mgrRead_of_segmentAt (by rw [segmentAt_mgrWrite e, if_neg hj]) k

theorem wf_mgrWrite {m m' : Memory} {id off v : Word} (h : m.wf) (e : mgrWrite m id off v = some m') : m'.wf := by
  obtain ⟨g, h1, h2, rfl⟩ := mgrWrite_eq_some.1 e
  have hk := segmentAt_eq_some.1 h1
  exact wf_put h hk (cellsWf_write (Nat.zero_le _) h2 v (segment_wf_of_slot h hk))

/-! ### ALLOC -/

/-- What an answered ALLOC leaves: the most recently freed id, or the next new one. -/
theorem mgrAlloc_eq_some {m : Memory} {len : Word} {p : Word × Memory} :
    mgrAlloc m len = some p ↔ m.noStorage = false ∧
      ((∃ id rest, m.free = id :: rest ∧
          p = (BitVec.ofNat 32 id, { putSegment m id (freshSegment len) with free := rest })) ∨
       (m.free = [] ∧ m.table.length < Config.maxSegments ∧
          p = (BitVec.ofNat 32 m.table.length, { m with table := m.table ++ [some (freshSegment len)] }))) := by
  unfold mgrAlloc
  cases hn : m.noStorage
  · cases hf : m.free with
    | nil =>
      by_cases hl : m.table.length < Config.maxSegments <;> simp [hl, eq_comm]
    | cons id rest => simp [eq_comm]
  · simp

theorem mgrAlloc_eq_none {m : Memory} {len : Word} :
    mgrAlloc m len = none ↔ m.noStorage = true ∨ (m.free = [] ∧ Config.maxSegments ≤ m.table.length) := by
  unfold mgrAlloc
  cases hn : m.noStorage
  · cases hf : m.free with
    | nil =>
      by_cases hl : m.table.length < Config.maxSegments
      · simp [hl]
      · simp [hl, Nat.le_of_not_lt hl]
    | cons id rest => simp
  · simp

theorem wf_mgrAlloc {m : Memory} {len : Word} {p : Word × Memory} (h : m.wf) (e : mgrAlloc m len = some p) :
    p.2.wf := by
  obtain ⟨h0, hs, hl, hn, hf, ha⟩ := h
  obtain ⟨_, ⟨id, rest, hfree, rfl⟩ | ⟨hfree, hlt, rfl⟩⟩ := mgrAlloc_eq_some.1 e
  · have hid : m.table[id]? = some none := hf id (by simp [hfree])
    have hidlt : id < m.table.length := (List.getElem?_eq_some_iff.1 hid).1
    rw [hfree] at hn hf
    have hnot : id ∉ rest := (List.nodup_cons.1 hn).1
    refine ⟨?_, ?_, ?_, (List.nodup_cons.1 hn).2, ?_, ?_⟩
    · by_cases e0 : id = 0
      · subst e0; simp [putSegment, hidlt]
      · simpa [putSegment, List.getElem?_set, e0] using h0
    · intro slot hm
      rcases List.mem_or_eq_of_mem_set hm with hm | rfl
      · exact hs slot hm
      · rfl
    · simpa [putSegment] using hl
    · intro j hj
      have hne : id ≠ j := fun e => hnot (e ▸ hj)
      simpa [putSegment, List.getElem?_set, hne] using hf j (List.mem_cons_of_mem _ hj)
    · intro j hj hnone
      simp only [putSegment, List.length_set] at hj
      by_cases hne : id = j
      · subst hne; simp [putSegment, hidlt] at hnone
      · have := ha j hj (by simpa [putSegment, List.getElem?_set, hne] using hnone)
        rw [hfree] at this
        exact (List.mem_cons.1 this).resolve_left (Ne.symm hne)
  · refine ⟨?_, ?_, ?_, hn, ?_, ?_⟩
    · cases ht : m.table with
      | nil => simp [ht] at h0
      | cons x xs => simpa [ht] using h0
    · intro slot hm
      rcases List.mem_append.1 hm with hm | hm
      · exact hs slot hm
      · simp at hm; subst hm; rfl
    · simp only [List.length_append, List.length_singleton]; omega
    · intro j hj; simp [hfree] at hj
    · intro j hj hnone
      simp only [List.length_append, List.length_singleton] at hj
      by_cases hlast : j < m.table.length
      · exact ha j hlast (by simpa [List.getElem?_append_left hlast] using hnone)
      · have : j = m.table.length := by omega
        subst this; simp at hnone

/-- What an answered ALLOC leaves of a canonical address space: an id that is not 0 and was not active, a segment of
that length and all zero there, every other segment as it was (20_memory.md R58). -/
theorem segmentAt_mgrAlloc {m : Memory} {len : Word} {p : Word × Memory} (h : m.wf) (e : mgrAlloc m len = some p) :
    p.1.toNat = m.free.headD m.table.length ∧ p.1 ≠ 0 ∧ segmentAt m p.1 = none ∧
      (∀ j, segmentAt p.2 j = if j = p.1 then some (freshSegment len) else segmentAt m j) ∧
      p.2.free = m.free.tail ∧ p.2.noStorage = m.noStorage := by
  obtain ⟨h0, _, hl, _, hf, _⟩ := h
  have toNat_id : ∀ n < Config.maxSegments, (BitVec.ofNat 32 n).toNat = n := fun n hn => by
    simp only [BitVec.toNat_ofNat]; exact Nat.mod_eq_of_lt hn
  obtain ⟨_, ⟨id, rest, hfree, rfl⟩ | ⟨hfree, hlt, rfl⟩⟩ := mgrAlloc_eq_some.1 e
  · have hid := hf id (by simp [hfree])
    have hidlt : id < m.table.length := (List.getElem?_eq_some_iff.1 hid).1
    have e1 := toNat_id id (by omega)
    refine ⟨by simp [hfree, e1], ?_, by simp [segmentAt, e1, hid], fun j => ?_, by simp [hfree], rfl⟩
    · intro hz
      have : id = 0 := by rw [← e1]; simpa using congrArg BitVec.toNat hz
      subst this; simp [hid] at h0
    · show segmentAt (putSegment m id _) j = _
      rw [segmentAt_put hidlt]
      simp only [← BitVec.toNat_inj, e1]
  · have e1 := toNat_id m.table.length hlt
    refine ⟨by simp [hfree, e1], ?_, by simp [segmentAt, e1], fun j => ?_, by simp [hfree], rfl⟩
    · intro hz
      have : m.table.length = 0 := by rw [← e1]; simpa using congrArg BitVec.toNat hz
      simp [List.length_eq_zero_iff.1 this] at h0
    · simp only [← BitVec.toNat_inj, e1, segmentAt]
      by_cases hj : j.toNat = m.table.length
      · simp [hj]
      · rw [if_neg hj, List.getElem?_append]
        split
        · rfl
        · rw [List.getElem?_eq_none (by simp; omega), List.getElem?_eq_none (by omega)]

/-! ### FREE -/

/-- What an accepted FREE leaves: the id inactive and on top of the pool. -/
theorem mgrFree_eq_some {m m' : Memory} {id : Word} :
    mgrFree m id = some m' ↔ id ≠ 0 ∧ (∃ g, segmentAt m id = some g) ∧
      m' = { m with table := m.table.set id.toNat none, free := id.toNat :: m.free } := by
  unfold mgrFree
  by_cases h0 : id = 0
  · simp [h0]
  · cases h : segmentAt m id with
    | none => simp
    | some g => simpa [h0] using fun _ => ⟨Eq.symm, Eq.symm⟩

theorem mgrFree_eq_none {m : Memory} {id : Word} :
    mgrFree m id = none ↔ id = 0 ∨ segmentAt m id = none := by
  unfold mgrFree
  by_cases h0 : id = 0
  · simp [h0]
  · cases segmentAt m id <;> simp

/-- The segments after an accepted FREE: the id is not active, every other as it was. -/
theorem segmentAt_mgrFree {m m' : Memory} {id : Word} (e : mgrFree m id = some m') (j : Word) :
    segmentAt m' j = if j = id then none else segmentAt m j := by
  obtain ⟨_, ⟨g, hg⟩, rfl⟩ := mgrFree_eq_some.1 e
  have hlt := segmentAt_lt hg
  by_cases hj : j = id
  · subst hj; simp [segmentAt, hlt]
  · have hne : id.toNat ≠ j.toNat := fun e => hj (BitVec.eq_of_toNat_eq e.symm)
    simp [segmentAt, hne, hj]

theorem wf_mgrFree {m m' : Memory} {id : Word} (h : m.wf) (e : mgrFree m id = some m') : m'.wf := by
  obtain ⟨h0, hs, hl, hn, hf, ha⟩ := h
  obtain ⟨hid, ⟨g, hg⟩, rfl⟩ := mgrFree_eq_some.1 e
  have hslot := segmentAt_eq_some.1 hg
  have hlt := segmentAt_lt hg
  have hne0 : id.toNat ≠ 0 := fun e => hid (BitVec.eq_of_toNat_eq (by simpa using e))
  have hnot : id.toNat ∉ m.free := fun hm => by simp [hf _ hm] at hslot
  refine ⟨?_, ?_, ?_, List.nodup_cons.2 ⟨hnot, hn⟩, ?_, ?_⟩
  · simpa [List.getElem?_set, hne0] using h0
  · intro slot hm
    rcases List.mem_or_eq_of_mem_set hm with hm | rfl
    · exact hs slot hm
    · rfl
  · simpa using hl
  · intro j hj
    rcases List.mem_cons.1 hj with rfl | hj
    · simp [hlt]
    · have hne : id.toNat ≠ j := fun e => hnot (e ▸ hj)
      simpa [List.getElem?_set, hne] using hf j hj
  · intro j hj hnone
    simp only [List.length_set] at hj
    by_cases hne : id.toNat = j
    · simp [hne]
    · exact List.mem_cons_of_mem _ (ha j hj (by simpa [List.getElem?_set, hne] using hnone))

/-! ### REPLACE0 and init -/

theorem mgrReplace0_eq_some {m m' : Memory} {id : Word} :
    mgrReplace0 m id = some m' ↔ ∃ g, segmentAt m id = some g ∧ m' = putSegment m 0 g := by
  unfold mgrReplace0
  cases h : segmentAt m id <;> simp [eq_comm]

theorem mgrReplace0_eq_none {m : Memory} {id : Word} : mgrReplace0 m id = none ↔ segmentAt m id = none := by
  unfold mgrReplace0
  cases h : segmentAt m id <;> simp

/-- The segments after an accepted REPLACE0: segment 0 is a copy, every other as it was (20_memory.md R62). -/
theorem segmentAt_mgrReplace0 {m m' : Memory} {id : Word} (e : mgrReplace0 m id = some m') (j : Word) :
    segmentAt m' j = if j = 0 then segmentAt m id else segmentAt m j := by
  obtain ⟨g, hg, rfl⟩ := mgrReplace0_eq_some.1 e
  rw [segmentAt_put (lt_of_le_of_lt (Nat.zero_le _) (segmentAt_lt hg)), hg]
  simp [← BitVec.toNat_inj]

theorem wf_mgrReplace0 {m m' : Memory} {id : Word} (h : m.wf) (e : mgrReplace0 m id = some m') : m'.wf := by
  obtain ⟨g, hg, rfl⟩ := mgrReplace0_eq_some.1 e
  obtain ⟨g0, hg0⟩ : ∃ g0, m.table[0]? = some (some g0) := by
    obtain ⟨x, hx⟩ := Option.isSome_iff_exists.1 h.1
    exact ⟨x, Option.join_eq_some_iff.1 hx⟩
  exact wf_put h hg0 (segment_wf_of_slot h (segmentAt_eq_some.1 hg))

theorem wf_mgrInit {prog : List Word} (h : prog.length < Config.progLenBound) : (mgrInit prog).wf := by
  refine ⟨rfl, ?_, ?_, List.nodup_nil, ?_, ?_⟩
  · intro slot hm
    simp only [mgrInit, List.mem_singleton] at hm
    subst hm; exact segmentOfWords_wf h
  · simp [mgrInit, Config.maxSegments]
  · intro j hj; simp [mgrInit] at hj
  · intro j hj hnone
    simp only [mgrInit, List.length_singleton, Nat.lt_one_iff] at hj
    subst hj; simp [mgrInit] at hnone

/-- The memory at reset is in canonical form. -/
theorem wf_reset : Memory.reset.wf := by decide

/-- Placing an instruction for the next step keeps the canonical form. -/
theorem wf_plantWord {m : Memory} (h : m.wf) (off w : Word) : (plantWord m off w).wf := by
  obtain ⟨g0, hg0⟩ : ∃ g0, m.table[0]? = some (some g0) := by
    obtain ⟨x, hx⟩ := Option.isSome_iff_exists.1 h.1
    exact ⟨x, Option.join_eq_some_iff.1 hx⟩
  unfold plantWord
  split
  · exact h
  · rename_i hoff
    have hw : cellsWf 0 g0.len.toNat g0.cells = true := segment_wf_of_slot h hg0
    have hsucc : (off + 1).toNat = off.toNat + 1 := by
      have : off.toNat ≠ 0xFFFFFFFF := fun e => hoff (BitVec.eq_of_toNat_eq (by simpa using e))
      have := off.isLt
      rw [BitVec.toNat_add]; simp; omega
    simp only [hg0, Option.join_some]
    refine wf_put h hg0 ?_
    by_cases hl : off.toNat < g0.len.toNat
    · simp only [Segment.wf, hl, if_true]
      exact cellsWf_write (Nat.zero_le _) hl w hw
    · simp only [Segment.wf, hl, if_false, hsucc]
      exact cellsWf_write (Nat.zero_le _) (by omega) w (cellsWf_grow (by omega) hw)

end Sys2Proof.Machine
end

