-- ==== Sys2Proof/Laws/State.lean ====
section
/-! SUPPORT. One lemma per field per update of the state, and how the register file reads after a write. -/

namespace Sys2Proof.Machine

section Updates
variable (s : State) (r : RegIdx) (v pc : Word) (run : RunState) (m : Memory) (c : Console)

@[simp] theorem setReg_pc : (s.setReg r v).pc = s.pc := rfl
@[simp] theorem setReg_run : (s.setReg r v).run = s.run := rfl
@[simp] theorem setReg_mem : (s.setReg r v).mem = s.mem := rfl
@[simp] theorem setReg_console : (s.setReg r v).console = s.console := rfl

@[simp] theorem setPc_reg (q : RegIdx) : (s.setPc pc).reg q = s.reg q := rfl
@[simp] theorem setPc_regs : (s.setPc pc).regs = s.regs := rfl
@[simp] theorem setPc_pc : (s.setPc pc).pc = pc := rfl
@[simp] theorem setPc_run : (s.setPc pc).run = s.run := rfl
@[simp] theorem setPc_mem : (s.setPc pc).mem = s.mem := rfl
@[simp] theorem setPc_console : (s.setPc pc).console = s.console := rfl

@[simp] theorem setRun_reg (q : RegIdx) : (s.setRun run).reg q = s.reg q := rfl
@[simp] theorem setRun_regs : (s.setRun run).regs = s.regs := rfl
@[simp] theorem setRun_pc : (s.setRun run).pc = s.pc := rfl
@[simp] theorem setRun_run : (s.setRun run).run = run := rfl
@[simp] theorem setRun_mem : (s.setRun run).mem = s.mem := rfl
@[simp] theorem setRun_console : (s.setRun run).console = s.console := rfl

@[simp] theorem setMem_reg (q : RegIdx) : (s.setMem m).reg q = s.reg q := rfl
@[simp] theorem setMem_regs : (s.setMem m).regs = s.regs := rfl
@[simp] theorem setMem_pc : (s.setMem m).pc = s.pc := rfl
@[simp] theorem setMem_run : (s.setMem m).run = s.run := rfl
@[simp] theorem setMem_mem : (s.setMem m).mem = m := rfl
@[simp] theorem setMem_console : (s.setMem m).console = s.console := rfl

@[simp] theorem setConsole_reg (q : RegIdx) : (s.setConsole c).reg q = s.reg q := rfl
@[simp] theorem setConsole_regs : (s.setConsole c).regs = s.regs := rfl
@[simp] theorem setConsole_pc : (s.setConsole c).pc = s.pc := rfl
@[simp] theorem setConsole_run : (s.setConsole c).run = s.run := rfl
@[simp] theorem setConsole_mem : (s.setConsole c).mem = s.mem := rfl
@[simp] theorem setConsole_console : (s.setConsole c).console = c := rfl

/-- A register reads as the value written to it. -/
@[simp] theorem reg_setReg_same : (s.setReg r v).reg r = v := by
  simp [State.reg, State.setReg]

/-- A write leaves every other register alone. -/
theorem reg_setReg_other {q : RegIdx} (h : q ≠ r) : (s.setReg r v).reg q = s.reg q := by
  have : r.val ≠ q.val := fun e => h (Fin.ext e.symm)
  simp [State.reg, State.setReg, this]

theorem reg_setReg (q : RegIdx) : (s.setReg r v).reg q = if q = r then v else s.reg q := by
  by_cases h : q = r
  · subst h; simp
  · simp [h, reg_setReg_other]

end Updates

/-- Two states with equal fields and equal registers are equal. -/
theorem State.ext_of_regs {s t : State} (hr : ∀ r, t.reg r = s.reg r) (hp : t.pc = s.pc) (hn : t.run = s.run)
    (hm : t.mem = s.mem) (hc : t.console = s.console) : t = s := by
  have hregs : t.regs = s.regs := Vector.ext fun i hi => hr ⟨i, hi⟩
  cases s; cases t; simp_all

end Sys2Proof.Machine
end

