-- ==== Sys2Proof/Laws/Exec.lean ====
section
/-! SUPPORT. What an instruction and a step can do, said once: how each ends, and what memory it leaves. -/

namespace Sys2Proof.Machine

/-! ### Shared operations -/

theorem onAnswer_some {α : Type} (v : α) (s : State) (k : α → Result) : onAnswer (some v) s k = k v := rfl
theorem onAnswer_none {α : Type} (s : State) (k : α → Result) :
    onAnswer none s k = raiseFatal .memFault s := rfl

theorem raiseFatal_eq (cause : Cause) (s : State) : raiseFatal cause s = .next (s.setRun (.stopped cause)) := rfl
theorem complete_eq (s : State) : complete s = .next (s.setPc (s.pc + 1)) := rfl
theorem jump_eq (target : Word) (s : State) : jump target s = .next (s.setPc target) := rfl
theorem wait_eq (s : State) : wait s = .next s := rfl
theorem stopHalted_eq (s : State) : stopHalted s = .next (s.setRun .halted) := rfl

theorem isZero_iff (v : Word) : isZero v = true ↔ v = 0 := by simp [isZero]

theorem isZero_eq_false (v : Word) : isZero v = false ↔ v ≠ 0 := by simp [isZero]

theorem outOfByteRange_eq_false (v : Word) : outOfByteRange v = false ↔ v.toNat ≤ 255 := by simp [outOfByteRange]

theorem outOfByteRange_iff (v : Word) : outOfByteRange v = true ↔ 255 < v.toNat := by simp [outOfByteRange]

/-- A byte is never out of the console's range (42_console.md R161). -/
@[simp] theorem outOfByteRange_byteValue (b : Byte) : outOfByteRange (byteValue b) = false := by
  have := b.isLt
  simp only [outOfByteRange, byteValue, BitVec.toNat_ofNat, decide_eq_false_iff_not]
  omega

/-- `ConIn()`: a byte and the rest, end of stream, or no answer yet. -/
theorem conIn_cons {c : Console} {b : Byte} {rest : List Byte} (h : c.input = b :: rest) :
    conIn c = (.byte b, { c with input := rest }) := by simp [conIn, h]
theorem conIn_eos {c : Console} (h : c.input = []) (he : c.inputEnded = true) : conIn c = (.eos, c) := by
  simp [conIn, h, he]
theorem conIn_notYet {c : Console} (h : c.input = []) (he : c.inputEnded = false) : conIn c = (.notYet, c) := by
  simp [conIn, h, he]

/-! ### The instructions case by case -/

section Cases
variable {a b c : RegIdx} {s : State}

theorem exec_cmov_skip (h : s.reg c = 0) : exec (.cmov a b c) s = complete s := by
  simp only [exec, execCmov, (isZero_iff _).2 h, if_true]

theorem exec_cmov_move (h : s.reg c ≠ 0) : exec (.cmov a b c) s = complete (s.setReg a (s.reg b)) := by
  simp [exec, execCmov, (isZero_eq_false _).2 h]

theorem exec_div_zero (h : s.reg c = 0) : exec (.div a b c) s = raiseFatal .divZero s := by
  simp only [exec, execDiv, (isZero_iff _).2 h, if_true]

theorem exec_div_quotient (h : s.reg c ≠ 0) :
    exec (.div a b c) s = complete (s.setReg a (divU32 (s.reg b) (s.reg c))) := by
  simp [exec, execDiv, (isZero_eq_false _).2 h]

theorem exec_sload_ok {v : Word} (h : mgrRead s.mem (s.reg b) (s.reg c) = some v) :
    exec (.sload a b c) s = complete (s.setReg a v) := by simp only [exec, execSload, h, onAnswer_some]

theorem exec_sload_fault (h : mgrRead s.mem (s.reg b) (s.reg c) = none) :
    exec (.sload a b c) s = raiseFatal .memFault s := by simp only [exec, execSload, h, onAnswer_none]

theorem exec_sstore_ok {m : Memory} (h : mgrWrite s.mem (s.reg a) (s.reg b) (s.reg c) = some m) :
    exec (.sstore a b c) s = complete (s.setMem m) := by simp only [exec, execSstore, h, onAnswer_some]

theorem exec_sstore_fault (h : mgrWrite s.mem (s.reg a) (s.reg b) (s.reg c) = none) :
    exec (.sstore a b c) s = raiseFatal .memFault s := by simp only [exec, execSstore, h, onAnswer_none]

theorem exec_map_ok {p : Word × Memory} (h : mgrAlloc s.mem (s.reg c) = some p) :
    exec (.map b c) s = complete ((s.setMem p.2).setReg b p.1) := by simp only [exec, execMap, h, onAnswer_some]

theorem exec_map_fault (h : mgrAlloc s.mem (s.reg c) = none) :
    exec (.map b c) s = raiseFatal .memFault s := by simp only [exec, execMap, h, onAnswer_none]

theorem exec_unmap_ok {m : Memory} (h : mgrFree s.mem (s.reg c) = some m) :
    exec (.unmap c) s = complete (s.setMem m) := by simp only [exec, execUnmap, h, onAnswer_some]

theorem exec_unmap_fault (h : mgrFree s.mem (s.reg c) = none) :
    exec (.unmap c) s = raiseFatal .memFault s := by simp only [exec, execUnmap, h, onAnswer_none]

theorem exec_out_range (h : 255 < (s.reg c).toNat) : exec (.out c) s = raiseFatal .consoleRange s := by
  simp only [exec, execOut, (outOfByteRange_iff _).2 h, if_true]

theorem exec_out_emit (h : (s.reg c).toNat ≤ 255) (hr : s.console.outReady = true) :
    exec (.out c) s = complete (s.setConsole (conOut s.console (lowByte (s.reg c)))) := by
  simp [exec, execOut, (outOfByteRange_eq_false _).2 h, hr]

theorem exec_out_wait (h : (s.reg c).toNat ≤ 255) (hr : s.console.outReady = false) :
    exec (.out c) s = wait s := by
  simp [exec, execOut, (outOfByteRange_eq_false _).2 h, hr]

theorem exec_inp_byte {byte : Byte} {rest : List Byte} (h : s.console.input = byte :: rest) :
    exec (.inp c) s =
      complete ((s.setConsole { s.console with input := rest }).setReg c (byteValue byte)) := by
  simp [exec, execInp, conIn_cons h]

theorem exec_inp_eos (h : s.console.input = []) (he : s.console.inputEnded = true) :
    exec (.inp c) s = complete ((s.setConsole s.console).setReg c Config.eosWord) := by
  simp [exec, execInp, conIn_eos h he]

theorem exec_inp_wait (h : s.console.input = []) (he : s.console.inputEnded = false) :
    exec (.inp c) s = wait s := by
  simp [exec, execInp, conIn_notYet h he]

theorem exec_loadprog_jump (h : s.reg b = 0) : exec (.loadprog b c) s = jump (s.reg c) s := by
  simp only [exec, execLoadprog, (isZero_iff _).2 h, if_true]

theorem exec_loadprog_copy {m : Memory} (h : s.reg b ≠ 0) (hm : mgrReplace0 s.mem (s.reg b) = some m) :
    exec (.loadprog b c) s = jump (s.reg c) (s.setMem m) := by
  simp [exec, execLoadprog, (isZero_eq_false _).2 h, hm, onAnswer_some]

theorem exec_loadprog_fault (h : s.reg b ≠ 0) (hm : mgrReplace0 s.mem (s.reg b) = none) :
    exec (.loadprog b c) s = raiseFatal .memFault s := by
  simp [exec, execLoadprog, (isZero_eq_false _).2 h, hm, onAnswer_none]

end Cases

/-! ### How an instruction ends -/

/-- The states an instruction can end in. -/
inductive Ends (i : Instr) (s : State) : State → Prop where
  /-- An abnormal stop: nothing but `run` changes. -/
  | stop (cause : Cause) : Ends i s (s.setRun (.stopped cause))
  /-- HALT: nothing but `run` changes. -/
  | halt (hi : i = .halt) : Ends i s (s.setRun .halted)
  /-- A console port has not answered: nothing changes. -/
  | wait (c : RegIdx) (hi : i = .out c ∨ i = .inp c) : Ends i s s
  /-- It completes and goes on to the next word. -/
  | complete (u : State) (hi : ∀ b c, i ≠ .loadprog b c) (hh : i ≠ .halt) (hr : u.run = s.run) (hp : u.pc = s.pc) :
      Ends i s (u.setPc (u.pc + 1))
  /-- LOADPROG goes to its target. -/
  | jump (b c : RegIdx) (u : State) (hi : i = .loadprog b c) (hr : u.run = s.run) (hg : u.regs = s.regs)
      (hc : u.console = s.console) : Ends i s (u.setPc (s.reg c))

/-- Every instruction answers a next state, and ends in one of these ways. -/
theorem exec_ends (i : Instr) (s : State) : ∃ t, exec i s = .next t ∧ Ends i s t := by
  cases i with
  | cmov a b c =>
    by_cases h : s.reg c = 0
    · exact ⟨_, exec_cmov_skip h, .complete s (by simp) (by simp) rfl rfl⟩
    · exact ⟨_, exec_cmov_move h, .complete _ (by simp) (by simp) rfl rfl⟩
  | sload a b c =>
    cases e : mgrRead s.mem (s.reg b) (s.reg c) with
    | none => exact ⟨_, exec_sload_fault e, .stop _⟩
    | some v => exact ⟨_, exec_sload_ok e, .complete _ (by simp) (by simp) rfl rfl⟩
  | sstore a b c =>
    cases e : mgrWrite s.mem (s.reg a) (s.reg b) (s.reg c) with
    | none => exact ⟨_, exec_sstore_fault e, .stop _⟩
    | some m => exact ⟨_, exec_sstore_ok e, .complete _ (by simp) (by simp) rfl rfl⟩
  | add a b c => exact ⟨_, rfl, .complete _ (by simp) (by simp) rfl rfl⟩
  | mul a b c => exact ⟨_, rfl, .complete _ (by simp) (by simp) rfl rfl⟩
  | div a b c =>
    by_cases h : s.reg c = 0
    · exact ⟨_, exec_div_zero h, .stop _⟩
    · exact ⟨_, exec_div_quotient h, .complete _ (by simp) (by simp) rfl rfl⟩
  | nand a b c => exact ⟨_, rfl, .complete _ (by simp) (by simp) rfl rfl⟩
  | halt => exact ⟨_, rfl, .halt rfl⟩
  | map b c =>
    cases e : mgrAlloc s.mem (s.reg c) with
    | none => exact ⟨_, exec_map_fault e, .stop _⟩
    | some p => exact ⟨_, exec_map_ok e, .complete _ (by simp) (by simp) rfl rfl⟩
  | unmap c =>
    cases e : mgrFree s.mem (s.reg c) with
    | none => exact ⟨_, exec_unmap_fault e, .stop _⟩
    | some m => exact ⟨_, exec_unmap_ok e, .complete _ (by simp) (by simp) rfl rfl⟩
  | out c =>
    by_cases h : 255 < (s.reg c).toNat
    · exact ⟨_, exec_out_range h, .stop _⟩
    · cases e : s.console.outReady with
      | true => exact ⟨_, exec_out_emit (by omega) e, .complete _ (by simp) (by simp) rfl rfl⟩
      | false => exact ⟨_, exec_out_wait (by omega) e, .wait c (.inl rfl)⟩
  | inp c =>
    cases e : s.console.input with
    | cons byte rest => exact ⟨_, exec_inp_byte e, .complete _ (by simp) (by simp) rfl rfl⟩
    | nil =>
      cases e' : s.console.inputEnded with
      | true => exact ⟨_, exec_inp_eos e e', .complete _ (by simp) (by simp) rfl rfl⟩
      | false => exact ⟨_, exec_inp_wait e e', .wait c (.inr rfl)⟩
  | loadprog b c =>
    by_cases h : s.reg b = 0
    · exact ⟨_, exec_loadprog_jump h, .jump b c s rfl rfl rfl rfl⟩
    · cases e : mgrReplace0 s.mem (s.reg b) with
      | none => exact ⟨_, exec_loadprog_fault h e, .stop _⟩
      | some m => exact ⟨_, exec_loadprog_copy h e, .jump b c (s.setMem m) rfl rfl rfl rfl⟩
  | loadimm a imm => exact ⟨_, rfl, .complete _ (by simp) (by simp) rfl rfl⟩
  | invalid14 => exact ⟨_, rfl, .stop _⟩
  | invalid15 => exact ⟨_, rfl, .stop _⟩

/-- What holds of a next state that an instruction answers. -/
theorem ends_of_exec {i : Instr} {s t : State} (h : exec i s = .next t) : Ends i s t := by
  obtain ⟨u, hu, he⟩ := exec_ends i s
  rw [hu] at h; cases h; exact he

/-! ### What memory an instruction leaves -/

/-- Every answered request keeps the canonical form of memory. -/
theorem wf_answer {m m' : Memory} (q : MemRequest) (h : m.wf) (e : answer m q = some m') : m'.wf := by
  cases q with
  | read id off =>
    obtain ⟨_, _, rfl⟩ := Option.map_eq_some_iff.1 e
    exact h
  | write id off data => exact wf_mgrWrite h e
  | alloc len =>
    obtain ⟨p, hp, rfl⟩ := Option.map_eq_some_iff.1 e
    exact wf_mgrAlloc h hp
  | free id => exact wf_mgrFree h e
  | replace0 id => exact wf_mgrReplace0 h e

/-- Memory after an instruction is as it was, or as an answered request leaves it. -/
theorem exec_mem {i : Instr} {s t : State} (h : exec i s = .next t) :
    t.mem = s.mem ∨ ∃ q, answer s.mem q = some t.mem := by
  cases i with
  | cmov a b c =>
    simp only [exec, execCmov, complete] at h
    cases h; left; split <;> simp
  | sload a b c =>
    simp only [exec, execSload] at h
    cases e : mgrRead s.mem (s.reg b) (s.reg c) <;> rw [e] at h <;> cases h <;> simp
  | sstore a b c =>
    simp only [exec, execSstore] at h
    cases e : mgrWrite s.mem (s.reg a) (s.reg b) (s.reg c) <;> rw [e] at h <;> cases h
    · simp
    · exact .inr ⟨.write _ _ _, e⟩
  | add a b c => cases h; simp
  | mul a b c => cases h; simp
  | div a b c =>
    simp only [exec, execDiv] at h
    split at h <;> cases h <;> simp
  | nand a b c => cases h; simp
  | halt => cases h; simp
  | map b c =>
    simp only [exec, execMap] at h
    cases e : mgrAlloc s.mem (s.reg c) <;> rw [e] at h <;> cases h
    · simp
    · exact .inr ⟨.alloc (s.reg c), by simp [answer, e]⟩
  | unmap c =>
    simp only [exec, execUnmap] at h
    cases e : mgrFree s.mem (s.reg c) <;> rw [e] at h <;> cases h
    · simp
    · exact .inr ⟨.free _, e⟩
  | out c =>
    simp only [exec, execOut] at h
    split at h
    · cases h; simp
    · split at h <;> cases h <;> simp
  | inp c =>
    simp only [exec, execInp] at h
    split at h
    · cases h; simp
    · cases h; simp
    · split at h <;> cases h <;> simp
  | loadprog b c =>
    simp only [exec, execLoadprog] at h
    split at h
    · cases h; simp
    · cases e : mgrReplace0 s.mem (s.reg b) <;> rw [e] at h <;> cases h
      · simp
      · exact .inr ⟨.replace0 _, e⟩
  | loadimm a imm => cases h; simp
  | invalid14 => cases h; simp
  | invalid15 => cases h; simp

/-! ### The step -/

theorem step_running_fetched {s : State} {w : Word} (hr : s.run = .running) (hf : fetch s = some w) :
    step s = exec (decode w) s := by simp [step, hr, hf]

theorem step_running_outOfBounds {s : State} (hr : s.run = .running) (hf : fetch s = none) :
    step s = raiseFatal .fetchOob s := by simp [step, hr, hf]

/-- A core that has ended its run holds its state. -/
theorem step_ended {s : State} (hr : s.run ≠ .running) : step s = .next s := by
  unfold step; cases h : s.run <;> simp_all

/-- One step of a longer run, for any machine. -/
theorem core_run_succ (M : Host.Core) {k : Nat} {s t : M.State} (h : M.step s = .next t) :
    M.run (k + 1) s = M.run k t := by simp only [Host.Core.run, h]

/-- One step of a longer run. -/
theorem run_succ {k : Nat} {s t : State} (h : step s = .next t) : core.run (k + 1) s = core.run k t :=
  core_run_succ core h

end Sys2Proof.Machine
end

