-- ==== Sys2Proof/Laws/PerInstr.lean ====
section
/-! SUPPORT. One statement for all instructions, a lemma per constructor: the opcode field of an instruction's word is
its row's opcode (30_encoding.md R92, R96). -/

namespace Sys2Proof.Laws.OpcodeField

/-- The opcode field of the encoded instruction is its opcode. -/
def Statement (i : Instr) : Prop := field (encode i) 4 28 = i.opcode

theorem cmov (a b c : RegIdx) : Statement (.cmov a b c) := opcode_wordR3 (by decide) a b c
theorem sload (a b c : RegIdx) : Statement (.sload a b c) := opcode_wordR3 (by decide) a b c
theorem sstore (a b c : RegIdx) : Statement (.sstore a b c) := opcode_wordR3 (by decide) a b c
theorem add (a b c : RegIdx) : Statement (.add a b c) := opcode_wordR3 (by decide) a b c
theorem mul (a b c : RegIdx) : Statement (.mul a b c) := opcode_wordR3 (by decide) a b c
theorem div (a b c : RegIdx) : Statement (.div a b c) := opcode_wordR3 (by decide) a b c
theorem nand (a b c : RegIdx) : Statement (.nand a b c) := opcode_wordR3 (by decide) a b c
theorem halt : Statement .halt := opcode_wordR3 (by decide) 0 0 0
theorem map (b c : RegIdx) : Statement (.map b c) := opcode_wordR3 (by decide) 0 b c
theorem unmap (c : RegIdx) : Statement (.unmap c) := opcode_wordR3 (by decide) 0 0 c
theorem out (c : RegIdx) : Statement (.out c) := opcode_wordR3 (by decide) 0 0 c
theorem inp (c : RegIdx) : Statement (.inp c) := opcode_wordR3 (by decide) 0 0 c
theorem loadprog (b c : RegIdx) : Statement (.loadprog b c) := opcode_wordR3 (by decide) 0 b c
theorem loadimm (a : RegIdx) (imm : Imm) : Statement (.loadimm a imm) := opcode_wordLI (by decide) a imm
theorem invalid14 : Statement .invalid14 := opcode_wordR3 (by decide) 0 0 0
theorem invalid15 : Statement .invalid15 := opcode_wordR3 (by decide) 0 0 0

end Sys2Proof.Laws.OpcodeField
end

