-- ==== Sys2Proof/Tests/Slice0.lean ====
section
/-! SUPPORT. The model's own tests. Expected results come from spec/95_test_vectors.md (by the section or vector
named), never from the model. `test_meets_<what>` shows a concrete input that meets a statement's hypotheses. -/

namespace Sys2Proof.Tests

open Sys2Proof.Machine Sys2Proof.Claims

/-! ### Small states -/

/-- What a run leaves, if it goes on. -/
def after (r : Result) : Option State :=
  match r with
  | .next t => some t
  | .fault _ => none
  | .refused _ => none

/-- One step of the word `w` placed at `pc`. -/
def stepOf (w : Nat) (s : State) : Option State := after (step (s.withFetchWord 32 w))

/-- The start of 95_test_vectors.md 2.3: `x[1]` = 0xDEADBEEF, `x[2]` = b, `x[3]` = c. -/
def alu (b c : Word) : State := ((State.reset.setReg 1 0xDEADBEEF).setReg 2 b).setReg 3 c

/-- `x[1]`, `pc` and the run state after one step. -/
def aluAfter (w : Nat) (b c : Word) : Option (Word × Word × RunState) :=
  (stepOf w (alu b c)).map fun t => (t.reg 1, t.pc, t.run)

/-- The start of 2.4: segment 0 of length 3; segment 1 of length 4 with word 3 = 99; id 2 never allocated. -/
def segMem : Memory :=
  { table := [some { len := 3, cells := [] }, some { len := 4, cells := [(3, 99)] }], free := [], noStorage := false }

def seg (x2 x4 x5 : Word) : State :=
  (((State.reset.setMem segMem).setReg 2 x2).setReg 4 x4).setReg 5 x5

/-- The start of 2.5: `x[1]` and the input. -/
def con (x1 : Word) (input : List Byte) : State :=
  (State.reset.setReg 1 x1).setConsole { Console.reset with input := input }

/-- A core that has freed id 1 of two ids. -/
def freed : State := State.reset.setMem { segMem with table := [some { len := 3, cells := [] }, none], free := [1] }

/-- A core whose manager has no storage. -/
def noStorage : State := storageRunsOut true State.reset

/-- A core at `pc` of a program. -/
def program (ws : List Word) (pc : Word) : State := (boot { prog := ws, input := [], inputEnded := true }).setPc pc

/-! ### WellFormed: one term for each check that the check refuses -/

theorem test_invalid14_is_ill_formed : Instr.invalid14.wellFormed = false := by decide
theorem test_invalid15_is_ill_formed : Instr.invalid15.wellFormed = false := by decide
theorem test_halt_is_well_formed : Instr.halt.wellFormed = true := by decide
theorem test_file_of_three_bytes_is_ill_formed : fileWellFormed [0xD0, 0, 0] = false := by decide
theorem test_file_of_four_bytes_is_well_formed : fileWellFormed [0xD0, 0, 0, 1] = true := by decide
/-- A program of 2^32 words or more. -/
theorem test_too_long_program_is_ill_formed (n : Nat) (h : 4294967296 ≤ n) :
    progWellFormed (List.replicate n 0) = false := by
  simp [progWellFormed, Config.progLenBound, h]

/-! ### Decoding: the words of 2.2, and the bit fields of 2.1 -/

theorem test_fields : field 0xD0000048 4 28 = 13 ∧ field 0xD0000048 3 25 = 0 ∧ field 0xD0000048 25 0 = 72 ∧
    field 0x30000053 3 6 = 1 ∧ field 0xFFFFFFFF 32 0 = 0xFFFFFFFF ∧ field 0xFFFFFFFF 0 32 = 0 ∧
    field 0x80000000 1 31 = 1 ∧ field 0x80000000 4 28 = 8 := by decide
theorem test_decode_cmov : decode 0x00000053 = .cmov 1 2 3 ∧ decode 0x00000000 = .cmov 0 0 0 := by decide
theorem test_decode_sload : decode 0x10000053 = .sload 1 2 3 ∧ decode 0x1ABCDE2A = .sload 0 5 2 := by decide
theorem test_decode_sstore : decode 0x20000053 = .sstore 1 2 3 := by decide
theorem test_decode_add : decode 0x30000053 = .add 1 2 3 ∧ decode 0x3FFFFE53 = .add 1 2 3 := by decide
theorem test_decode_mul : decode 0x40000053 = .mul 1 2 3 := by decide
theorem test_decode_div : decode 0x50000053 = .div 1 2 3 := by decide
theorem test_decode_nand : decode 0x60000053 = .nand 1 2 3 := by decide
theorem test_decode_halt : decode 0x70000000 = .halt ∧ decode 0x7FFFFFFF = .halt := by decide
theorem test_decode_map : decode 0x80000013 = .map 2 3 := by decide
theorem test_decode_unmap : decode 0x90000003 = .unmap 3 := by decide
theorem test_decode_out : decode 0xA0000003 = .out 3 ∧ decode 0xA00001C0 = .out 0 := by decide
theorem test_decode_inp : decode 0xB0000003 = .inp 3 := by decide
theorem test_decode_loadprog : decode 0xC0000013 = .loadprog 2 3 ∧ decode 0xCFFFFE35 = .loadprog 6 5 := by decide
theorem test_decode_loadimm : decode 0xD3234567 = .loadimm 1 0x1234567 ∧ decode 0xDFFFFFFF = .loadimm 7 0x1FFFFFF ∧
    decode 0xD00001FF = .loadimm 0 511 := by decide
theorem test_decode_invalid : decode 0xE0000000 = .invalid14 ∧ decode 0xEFFFFFFF = .invalid14 ∧
    decode 0xF0000000 = .invalid15 ∧ decode 0xFFFFFFFF = .invalid15 := by decide
/-- 20_memory.md R67 on the file of vector F2, and a file that ends inside a word (R68). -/
theorem test_decode_bytes : decodeBytes [0xD0, 0x00, 0x00, 0x01] = .ok (.loadimm 0 1, []) ∧
    decodeBytes [0xD0, 0x00] = .error .truncatedWord ∧ wordsOfFile [0xD0, 0x00, 0x00, 0x01] = .ok [0xD0000001] := by
  decide
theorem test_decode_table_word : decodeTableWord 32 0x70000000 = some .halt ∧ decodeTableWord 32 (2 ^ 32) = none := by
  decide

/-! ### One step of each instruction -/

/-- Section 2.3, CMOV. -/
theorem test_step_cmov : aluAfter 0x00000053 9 0x80000000 = some (9, 1, .running) ∧
    aluAfter 0x00000053 9 0 = some (0xDEADBEEF, 1, .running) := by decide
/-- Section 2.3, ADD. -/
theorem test_step_add : aluAfter 0x30000053 0xFFFFFFFF 2 = some (1, 1, .running) ∧
    aluAfter 0x30000053 0x7FFFFFFF 1 = some (0x80000000, 1, .running) := by decide
/-- Section 2.3, MUL. -/
theorem test_step_mul : aluAfter 0x40000053 0x12345678 0x9ABCDEF0 = some (0x242D2080, 1, .running) ∧
    aluAfter 0x40000053 0xFFFFFFFF 0xFFFFFFFF = some (1, 1, .running) := by decide
/-- Section 2.3, DIV. -/
theorem test_step_div : aluAfter 0x50000053 0xFFFFFFFF 2 = some (0x7FFFFFFF, 1, .running) ∧
    aluAfter 0x50000053 0x80000000 0xFFFFFFFF = some (0, 1, .running) := by decide
theorem test_step_div_by_zero : aluAfter 0x50000053 7 0 = some (0xDEADBEEF, 0, .stopped .divZero) := by decide
/-- Section 2.3, NAND. -/
theorem test_step_nand : aluAfter 0x60000053 0xF0F0F0F0 0xFF00FF00 = some (0x0FFF0FFF, 1, .running) ∧
    aluAfter 0x60000053 0 0 = some (0xFFFFFFFF, 1, .running) := by decide
/-- Section 2.3, the destination is a source: ADD, MUL, DIV, NAND r1, r1, r1 on 5. -/
theorem test_step_same_register :
    [0x30000049, 0x40000049, 0x50000049, 0x60000049].map (fun w => (stepOf w (State.reset.setReg 1 5)).map (State.reg · 1)) =
      [some 10, some 25, some 1, some 0xFFFFFFFA] := by decide
/-- Section 2.3, LOADIMM: all 32 bits are replaced. -/
theorem test_step_loadimm : aluAfter 0xD2000000 0 0 = some (0, 1, .running) ∧
    aluAfter 0xD3234567 0 0 = some (0x01234567, 1, .running) := by decide
/-- Section 2.4, SLOAD: the last word, and one past it. -/
theorem test_step_sload : (stepOf 0x10000194 (seg 1 3 0)).map (State.reg · 6) = some 99 ∧
    (stepOf 0x10000194 (seg 0 0 0)).map (State.reg · 6) = some 0x10000194 := by decide
theorem test_step_sload_faults : (stepOf 0x10000194 (seg 1 4 0)).map (fun t => (t.run, t.pc, t.reg 6)) =
      some (.stopped .memFault, 0, 0) ∧
    (stepOf 0x10000194 (seg 2 0 0)).map (·.run) = some (.stopped .memFault) := by decide
/-- Section 2.4, SSTORE: word 2 of segment 1 changes and word 3 does not; one past the end faults. -/
theorem test_step_sstore : (stepOf 0x200000A5 (seg 1 2 0xCAFEF00D)).map (fun t => t.mem.table[1]?) =
      some (some (some { len := 4, cells := [(2, 0xCAFEF00D), (3, 99)] })) ∧
    (stepOf 0x200000A5 (seg 1 4 7)).map (fun t => (t.run, t.mem.table[1]?)) =
      some (.stopped .memFault, some (some { len := 4, cells := [(3, 99)] })) := by decide
/-- Section 2.4, MAP: the next id; 2.4 and V-LIFO: the freed id. -/
theorem test_step_map : (stepOf 0x80000019 ((seg 1 0 0).setReg 1 5)).map (fun t => (t.reg 3, t.mem.table[2]?)) =
      some (2, some (some { len := 5, cells := [] })) ∧
    (stepOf 0x80000019 (freed.setReg 1 1)).map (fun t => (t.reg 3, t.mem.free)) = some (1, []) := by decide
/-- 20_memory.md R65: an ALLOC without storage faults. -/
theorem test_step_map_without_storage : (stepOf 0x80000019 noStorage).map (fun t => (t.run, t.pc)) =
    some (.stopped .memFault, 0) := by decide
/-- Section 2.4, UNMAP; vector F8: twice. -/
theorem test_step_unmap : (stepOf 0x90000002 (seg 1 0 0)).map (fun t => (t.mem.table[1]?, t.mem.free, t.pc)) =
      some (some none, [1], 1) ∧
    ((stepOf 0x90000002 (seg 1 0 0)).bind (stepOf 0x90000002)).map (·.run) = some (.stopped .memFault) := by decide
theorem test_step_unmap_of_segment_zero : (stepOf 0x90000002 (seg 0 0 0)).map (·.run) = some (.stopped .memFault) := by
  decide
/-- Section 2.5, OUT: 255 and 256. -/
theorem test_step_out : (stepOf 0xA0000001 (con 255 [])).map (fun t => (t.console.output, t.pc)) = some ([0xFF], 1) ∧
    (stepOf 0xA0000001 (con 0x80000041 [])).map (fun t => (t.run, t.console.output)) =
      some (.stopped .consoleRange, []) := by decide
theorem test_step_out_of_256 : (stepOf 0xA0000001 (con 256 [])).map (·.run) = some (.stopped .consoleRange) := by decide
/-- Section 2.5, IN: 0x48, then end of stream; the byte 0xFF is not the end of stream. -/
theorem test_step_inp : (stepOf 0xB0000001 (con 0xDEADBEEF [0x48])).map (State.reg · 1) = some 0x48 ∧
    ((stepOf 0xB0000001 (con 0 [0x48])).bind (stepOf 0xB0000001)).map (fun t => (t.reg 1, t.run, t.pc)) =
      some (0xFFFFFFFF, .running, 2) := by decide
theorem test_step_inp_of_ff : (stepOf 0xB0000001 (con 0 [0xFF])).map (State.reg · 1) = some 0xFF := by decide
/-- Section 2.6, HALT at `pc` = 5. -/
theorem test_step_halt : (stepOf 0x70000000 (State.reset.setPc 5)).map (fun t => (t.run, t.pc)) = some (.halted, 5) := by
  decide
/-- Section 2.6, LOADPROG with a zero id, at `pc` = 9 with target 4. -/
theorem test_step_loadprog_jump : (stepOf 0xC0000004 ((State.reset.setPc 9).setReg 4 4)).map (fun t => (t.pc, t.run)) =
    some (4, .running) := by decide
/-- Section 2.6, `LOADPROG r2, r2`: segment 0 is a copy, `pc` = 1; vector F9: an id that is not active. -/
theorem test_step_loadprog_copy : (stepOf 0xC0000012 (seg 1 0 0)).map (fun t => (t.pc, t.mem.table)) =
      some (1, [some { len := 4, cells := [(3, 99)] }, some { len := 4, cells := [(3, 99)] }]) ∧
    (stepOf 0xC0000012 (seg 9 0 0)).map (fun t => (t.run, t.pc, t.mem.table[1]?)) =
      some (.stopped .memFault, 0, segMem.table[1]?) := by decide
/-- Vector F3, and the other invalid opcode. -/
theorem test_step_invalid : (stepOf 0xE0000000 State.reset).map (fun t => (t.run, t.pc)) = some (.stopped .invalidOpcode, 0) ∧
    (stepOf 0xFFFFFFFF State.reset).map (·.run) = some (.stopped .invalidOpcode) := by decide
/-- Vectors F11 and F10: the empty program, and a jump out of bounds. -/
theorem test_step_fetch_out_of_bounds : (after (step State.reset)).map (fun t => (t.run, t.pc)) =
      some (.stopped .fetchOob, 0) ∧
    (after (step (program [0xD2000064, 0xC0000001, 0x70000000] 100))).map (fun t => (t.run, t.pc)) =
      some (.stopped .fetchOob, 100) := by decide
/-- `withFetchWord` gives the word to the fetch and leaves the other words. -/
theorem test_with_fetch_word : fetch (State.reset.withFetchWord 32 0x70000000) = some 0x70000000 ∧
    ((program [1, 2, 3] 1).withFetchWord 32 9).mem = mgrInit [1, 9, 3] := by decide

/-! ### The invariant -/

theorem test_reset_meets_the_invariant : Safety.Inv State.reset := by decide
theorem test_segment_states_meet_the_invariant : Safety.Inv (seg 1 3 0) ∧ Safety.Inv freed := by decide
/-- A pool that lists an active id is refused. -/
theorem test_invariant_refuses_an_active_free_id : ¬ Safety.Inv (State.reset.setMem { segMem with free := [1] }) := by
  decide
/-- A segment that lists a word past its length is refused. -/
theorem test_invariant_refuses_a_word_past_the_end :
    ¬ Safety.Inv (State.reset.setMem { segMem with table := [some { len := 3, cells := [(3, 1)] }] }) := by decide

/-! ### Inputs that meet the statements' hypotheses, clause by clause, at the boundaries -/

/-- `field`'s precondition, at both ends of a word. -/
theorem test_meets_field : 0 + 32 ≤ 32 ∧ 32 + 0 ≤ 32 := by decide
/-- A word with opcode 3 and A, B, C = 1, 2, 3 and every ignored bit set, as `encodedABC` takes it. -/
theorem test_meets_encoded_abc : (0x3FFFFE53 : Word).toNat / 2 ^ 28 = 3 ∧ (0x3FFFFE53 : Word).toNat / 64 % 8 = 1 ∧
    (0x3FFFFE53 : Word).toNat / 8 % 8 = 2 ∧ (0x3FFFFE53 : Word).toNat % 8 = 3 := by decide
/-- The same word, as a word that agrees with the canonical one on the used bits. -/
theorem test_meets_used_bits : (0x3FFFFE53 : Word) &&& usedBits (Instr.add 1 2 3).opcode = encode (.add 1 2 3) ∧
    (0x3FFFFE53 : Word).toNat / 2 ^ 28 ≠ 13 := by decide
theorem test_meets_encoded_bc : (0xCFFFFE35 : Word).toNat / 2 ^ 28 = 12 ∧ (0xCFFFFE35 : Word).toNat / 8 % 8 = 6 ∧
    (0xCFFFFE35 : Word).toNat % 8 = 5 := by decide
theorem test_meets_encoded_c_and_plain : (0xA00001C0 : Word).toNat / 2 ^ 28 = 10 ∧ (0xA00001C0 : Word).toNat % 8 = 0 ∧
    (0x7FFFFFFF : Word).toNat / 2 ^ 28 = 7 := by decide
theorem test_meets_encoded_li : (0xD3234567 : Word).toNat / 2 ^ 28 = 13 ∧ (0xD3234567 : Word).toNat / 2 ^ 25 % 8 = 1 ∧
    (0xD3234567 : Word).toNat % 2 ^ 25 = 0x1234567 := by decide
/-- CMOV, DIV and LOADPROG look at all 32 bits: both cases. -/
theorem test_meets_zero_tests : (alu 9 0x80000000).reg 3 ≠ 0 ∧ (alu 9 1).reg 3 ≠ 0 ∧ (alu 9 0).reg 3 = 0 := by decide
/-- The last offset of a segment is valid. -/
theorem test_meets_valid_address : validAddress (seg 1 3 0).mem ((seg 1 3 0).reg 2) ((seg 1 3 0).reg 4) :=
  ⟨{ len := 4, cells := [(3, 99)] }, by decide, by decide⟩
/-- One past it is faulty. -/
theorem test_meets_faulty_offset : faultyAddress (seg 1 4 0).mem ((seg 1 4 0).reg 2) ((seg 1 4 0).reg 4) :=
  .inr ⟨{ len := 4, cells := [(3, 99)] }, by decide, by decide⟩
/-- An id never handed out is faulty at every offset. -/
theorem test_meets_faulty_id : faultyAddress (seg 2 0 0).mem ((seg 2 0 0).reg 2) ((seg 2 0 0).reg 4) :=
  .inl (by decide)
/-- MAP with an empty pool, and with a freed id. -/
theorem test_meets_map_fresh : (seg 1 0 0).mem.wf ∧ (seg 1 0 0).mem.noStorage = false ∧
    (seg 1 0 0).mem.table.length < Config.maxSegments := by decide
theorem test_meets_map_freed : freed.mem.wf ∧ freed.mem.noStorage = false ∧ freed.mem.free ≠ [] := by decide
theorem test_meets_map_without_storage : mgrAlloc noStorage.mem (noStorage.reg 1) = none := by decide
/-- No id below 2^32 is left (`n` is 4294967296, say). -/
theorem test_meets_map_without_ids (n : Nat) (h : Config.maxSegments ≤ n) :
    mgrAlloc { table := List.replicate n (some (freshSegment 0)), free := [], noStorage := false } 0 = none := by
  rw [mgrAlloc_eq_none]; simp [h]
/-- UNMAP of an active id, of id 0, and of an inactive id. -/
theorem test_meets_unmap : (seg 1 0 0).reg 2 ≠ 0 ∧ segmentAt (seg 1 0 0).mem ((seg 1 0 0).reg 2) ≠ none ∧
    (seg 0 0 0).reg 2 = 0 ∧ segmentAt (seg 2 0 0).mem ((seg 2 0 0).reg 2) = none ∧ segmentAt freed.mem 1 = none := by
  decide
/-- OUT of 255 with a consumer that accepts, and one that is busy; OUT of 256. -/
theorem test_meets_out : ((con 255 []).reg 1).toNat ≤ 255 ∧ (con 255 []).console.outReady = true ∧
    ((consumerReady false (con 255 [])).reg 1).toNat ≤ 255 ∧ (consumerReady false (con 255 [])).console.outReady = false ∧
    255 < ((con 256 []).reg 1).toNat := by decide
/-- IN with a byte there, at end of stream, and with nothing there yet. -/
theorem test_meets_inp : (con 0 [0x48]).console.input = 0x48 :: [] ∧ (con 0 []).console.input = [] ∧
    (con 0 []).console.inputEnded = true ∧
    (boot { prog := [], input := [], inputEnded := false }).console.input = [] ∧
    (boot { prog := [], input := [], inputEnded := false }).console.inputEnded = false := by decide
/-- LOADPROG of id 0, of an active id and of an inactive one. -/
theorem test_meets_loadprog : (seg 0 0 0).reg 2 = 0 ∧ (seg 1 0 0).reg 2 ≠ 0 ∧
    segmentAt (seg 1 0 0).mem ((seg 1 0 0).reg 2) ≠ none ∧ (seg 9 0 0).reg 2 ≠ 0 ∧
    segmentAt (seg 9 0 0).mem ((seg 9 0 0).reg 2) = none := by decide
/-- The fetch at the last word and one past it. -/
theorem test_meets_fetch : (program [5, 6] 1).run = .running ∧ mgrRead (program [5, 6] 1).mem 0 1 = some 6 ∧
    segmentAt (program [5, 6] 1).mem 0 = some { len := 2, cells := [(0, 5), (1, 6)] } ∧
    (program [5, 6] 1).pc.toNat < (2 : Word).toNat ∧ (2 : Word).toNat ≤ (program [5, 6] 2).pc.toNat := by decide
/-- A fetch at the highest index there can be: word 2^32 - 2 of a segment of length 2^32 - 1. -/
theorem test_meets_fetch_at_the_top :
    fetch ((State.reset.setMem { table := [some { len := 0xFFFFFFFF, cells := [] }], free := [], noStorage := false }).setPc
      0xFFFFFFFE) = some 0 := by decide
theorem test_meets_ended : (State.reset.setRun .halted).run ≠ .running ∧
    (State.reset.setRun (.stopped .memFault)).run ≠ .running ∧ progWellFormed [0x70000000] = true := by decide
/-- A running step that stops, for each cause. -/
theorem test_meets_each_cause : (after (step (program [] 0))).map (·.run) = some (.stopped .fetchOob) ∧
    (after (step (program [0x90000000] 0))).map (·.run) = some (.stopped .memFault) ∧
    (after (step (program [0xE0000000] 0))).map (·.run) = some (.stopped .invalidOpcode) ∧
    (after (step (program [0x50000000] 0))).map (·.run) = some (.stopped .divZero) ∧
    (after (step (((program [0xA0000001] 0)).setReg 1 256))).map (·.run) = some (.stopped .consoleRange) := by decide
/-- The stop conditions of the same five states hold. -/
theorem test_meets_fetch_oob_condition : stopCondition (program [] 0) .fetchOob := by
  intro g h; cases h; decide
theorem test_meets_mem_fault_condition : stopCondition (program [0x90000000] 0) .memFault :=
  ⟨0x90000000, by decide, .inl (by decide)⟩
theorem test_meets_invalid_opcode_condition : stopCondition (program [0xE0000000] 0) .invalidOpcode :=
  ⟨0xE0000000, by decide, by decide⟩
theorem test_meets_div_zero_condition : stopCondition (program [0x50000000] 0) .divZero :=
  ⟨0x50000000, 0, 0, 0, by decide, by decide, by decide⟩
theorem test_meets_console_range_condition : stopCondition ((program [0xA0000001] 0).setReg 1 256) .consoleRange :=
  ⟨0xA0000001, 1, by decide, by decide, by decide⟩
/-- The four ends of a running step in `pc`'s rule: HALT, LOADPROG, an ordinary instruction, a console wait. -/
theorem test_meets_pc_after_each_step : (after (step (program [0x70000000] 0))).map (·.run) = some .halted ∧
    (after (step ((program [0xC0000004] 0).setReg 4 7))).map (fun t => (t.run, t.pc)) = some (.running, 7) ∧
    (after (step (program [0x30000053] 0))).map (fun t => (t.run, t.pc)) = some (.running, 1) ∧
    after (step (consumerReady false (program [0xA0000001] 0))) = some (consumerReady false (program [0xA0000001] 0)) := by
  decide
/-- A register no instruction lists: DIV by zero does not write A; CMOV without a move reads C alone. -/
theorem test_meets_registers : (1 : RegIdx) ∉ writesOf (.div 1 2 3) (alu 7 0) ∧ (2 : RegIdx) ∉ readsOf (.cmov 1 2 3) (alu 9 0) ∧
    (exec (.div 1 2 3) (alu 7 0)) = .next ((alu 7 0).setRun (.stopped .divZero)) := ⟨by decide, by decide, rfl⟩
/-- No request, a request that faults, a request that is answered. -/
theorem test_meets_requests : requestOf (.add 1 2 3) (alu 1 2) = none ∧ requestOf (.loadprog 2 4) (seg 0 0 0) = none ∧
    requestOf (.sload 6 2 4) (seg 1 4 0) = some (.read 1 4) ∧ answer (seg 1 4 0).mem (.read 1 4) = none ∧
    requestOf (.unmap 2) (seg 1 0 0) = some (.free 1) ∧ answer (seg 1 0 0).mem (.free 1) ≠ none := by decide
/-- A store into segment 1 beside an unchanged segment 0. -/
theorem test_meets_segment_lengths : (stepOf 0x200000A5 (seg 1 2 7)).map (fun t => (segmentAt t.mem 1).map Segment.len) =
      some (some 4) ∧
    (stepOf 0x200000A5 (seg 1 2 7)).map (fun t => (segmentAt t.mem 0).map Segment.len) = some (some 3) ∧
    ((seg 1 2 7).withFetchWord 32 0x200000A5).mem.wf ∧
    fetch ((seg 1 2 7).withFetchWord 32 0x200000A5) = some 0x200000A5 ∧ decode 0x200000A5 = .sstore 2 4 5 := by decide
/-- S4: MAP gives id 1; UNMAP of it; MAP gives id 1 again; without the UNMAP the second MAP gives id 2. -/
theorem test_meets_map_unmap_map : State.reset.mem.wf ∧
    (after (exec (.map 1 7) State.reset)).map (State.reg · 1) = some 1 ∧
    (((after (exec (.map 1 7) State.reset)).bind fun s => after (exec (.unmap 1) s)).bind fun s =>
      after (exec (.map 2 7) s)).map (fun s => (s.reg 2, s.run)) = some (1, .running) ∧
    ((after (exec (.map 1 7) State.reset)).bind fun s => after (exec (.map 2 7) s)).map (fun s => (s.reg 2, s.run)) =
      some (2, .running) := by decide
/-- A copy of segment 1 into segment 0, then a write to either, and a free of the source. -/
theorem test_meets_replace : (1 : Word) ≠ 0 ∧
    (mgrReplace0 segMem 1).bind (fun m => mgrWrite m 1 0 7) ≠ none ∧
    (mgrReplace0 segMem 1).bind (fun m => mgrWrite m 0 0 7) ≠ none ∧
    (mgrReplace0 segMem 1).bind (fun m => mgrFree m 1) ≠ none := by decide
/-- P5's store into segment 0, before the word is reached and onto the running word itself. -/
theorem test_meets_stored_word : (seg 0 2 0x70000000).reg 2 = 0 ∧ (seg 0 2 0x70000000).run = .running ∧
    (after (exec (.sstore 2 4 5) (seg 0 2 0x70000000))).map (·.run) = some .running ∧
    fetch ((seg 0 0 7).withFetchWord 32 0x200000A5) = some 0x200000A5 ∧ (seg 0 0 7).reg 4 = (seg 0 0 7).pc := by decide
/-- Section 2.6: a LOADPROG that goes on. -/
theorem test_meets_loaded_program : (after (exec (.loadprog 2 4) (seg 1 3 0))).bind fetch = some 99 := by decide
theorem test_meets_end_of_stream : (con 0 []).console.input = [] ∧ (con 0 []).console.inputEnded = true := by decide
/-- After a program of one step from reset. -/
theorem test_meets_end_of_stream_run : core.run 1 (con 0 []) = .next ((con 0 []).setRun (.stopped .fetchOob)) := rfl
/-- Programs and files of the lengths the host's rules speak of. -/
theorem test_meets_lengths : progWellFormed [0xD0000001] = true ∧ [0xD0000001].length < 2 ^ 32 ∧
    ([0xD0, 0x00, 0x00, 0x01] : List Byte).length % 4 = 0 ∧ ([0xD0, 0x00] : List Byte).length % 4 ≠ 0 := by decide
/-- Vectors F8 (from its second UNMAP) and F4: the result keeps the cause, and the host reads the segments. -/
theorem test_result_of_a_finished_run :
    ((stepOf 0x90000002 freed).bind runResult) = some { run := .stopped .memFault, output := [] } ∧
    ((stepOf 0xA0000001 (con 256 [])).bind runResult) = some { run := .stopped .consoleRange, output := [] } ∧
    ((stepOf 0x70000000 (seg 0 0 0)).map fun t => (viewedWord (statusPort t) 1 3, viewedWord (statusPort t) 1 4)) =
      some (some 99, none) ∧
    ((after (core.run 1 (State.reset.setRun .halted))).bind collect) = some ({ run := .halted, output := [] }, 0) ∧
    runResult (con 0 []) = none ∧ (statusPort (con 0 [])).segments = none := by decide
theorem test_meets_other_causes : Cause.memFault ≠ Cause.fetchOob ∧ Cause.consoleRange ≠ Cause.fetchOob := by decide
/-- Vector F1's file boots and stops as the spec says after its two steps. -/
theorem test_boot_file : ((after (bootFile State.reset [0xD2, 0, 0, 5, 0x50, 0, 0, 0x88, 0x70, 0, 0, 0] [] true)).bind
    fun s => (after (core.run 2 s))).map (fun t => (t.run, t.pc, t.reg 1, t.reg 2)) =
    some (.stopped .divZero, 1, 5, 0) := by decide

end Sys2Proof.Tests
end

/-! SUPPORT. Which registers an instruction reads and writes (10_state.md R22). What an instruction does is told by
the registers it reads: a fixed rest of the next state and at most one register write, whatever else the register
file holds. -/

section
namespace Sys2Proof.Machine

/-! ### The register file exchanged as a whole -/

/-- `s` with another register file. -/
def State.withRegs (s : State) (x : Vector Word 8) : State := { s with regs := x }

section
variable (s : State) (x : Vector Word 8)

@[simp] theorem withRegs_pc : (s.withRegs x).pc = s.pc := rfl
@[simp] theorem withRegs_run : (s.withRegs x).run = s.run := rfl
@[simp] theorem withRegs_mem : (s.withRegs x).mem = s.mem := rfl
@[simp] theorem withRegs_console : (s.withRegs x).console = s.console := rfl
@[simp] theorem withRegs_regs_reg (u : State) (q : RegIdx) : (u.withRegs s.regs).reg q = s.reg q := rfl

end

/-! ### At most one register write -/

/-- The register write of an instruction, if it makes one. -/
def State.writeBack (s : State) : Option (RegIdx × Word) → State
  | none => s
  | some (a, v) => s.setReg a v

section
variable (s : State) (w : Option (RegIdx × Word))

@[simp] theorem writeBack_pc : (s.writeBack w).pc = s.pc := by cases w <;> rfl
@[simp] theorem writeBack_run : (s.writeBack w).run = s.run := by cases w <;> rfl
@[simp] theorem writeBack_mem : (s.writeBack w).mem = s.mem := by cases w <;> rfl
@[simp] theorem writeBack_console : (s.writeBack w).console = s.console := by cases w <;> rfl

/-- A register that is not written keeps its value. -/
theorem reg_writeBack_of_ne {q : RegIdx} (h : ∀ p ∈ w, p.1 ≠ q) : (s.writeBack w).reg q = s.reg q := by
  cases w with
  | none => rfl
  | some p => exact reg_setReg_other _ _ _ (h p rfl).symm

/-- A register that is written holds the value written, whatever it held. -/
theorem reg_writeBack_of_eq {p : RegIdx × Word} : (s.writeBack (some p)).reg p.1 = p.2 := reg_setReg_same _ _ _

/-- The same write on two states that agree at a register leaves them agreeing there. -/
theorem reg_writeBack_congr {s s' : State} {q : RegIdx} (h : s'.reg q = s.reg q) :
    (s'.writeBack w).reg q = (s.writeBack w).reg q := by
  cases w with
  | none => exact h
  | some p => simp only [State.writeBack, reg_setReg, h]

end

/-! ### What the read registers decide -/

/-- The register file `x` holds what `s` holds in every register that `i` reads in `s`. -/
def AgreesOnReads (i : Instr) (s : State) (x : Vector Word 8) : Prop :=
  ∀ q ∈ readsOf i s, (s.withRegs x).reg q = s.reg q

/-- What `i` does in `s` is decided by the registers it reads: with every register file that agrees on them it leaves
the same rest `u` of the state and makes the same register write `w`, which is none or a listed one. -/
def DecidedByReads (i : Instr) (s : State) : Prop :=
  ∃ (u : State) (w : Option (RegIdx × Word)), (∀ p ∈ w, p.1 ∈ writesOf i s) ∧
    ∀ x, AgreesOnReads i s x → exec i (s.withRegs x) = .next ((u.withRegs x).writeBack w)

namespace DecidedByReads
variable {i : Instr} {s : State}

/-- `i` makes no register write. -/
theorem of_noWrite (u : State)
    (h : ∀ x, AgreesOnReads i s x → exec i (s.withRegs x) = .next (u.withRegs x)) : DecidedByReads i s :=
  ⟨u, none, by simp, h⟩

/-- `i` stops. -/
theorem of_stop (cause : Cause)
    (h : ∀ x, AgreesOnReads i s x → exec i (s.withRegs x) = raiseFatal cause (s.withRegs x)) : DecidedByReads i s :=
  of_noWrite (s.setRun (.stopped cause)) h

/-- `i` completes and makes no register write. -/
theorem of_complete (u : State)
    (h : ∀ x, AgreesOnReads i s x → exec i (s.withRegs x) = complete (u.withRegs x)) : DecidedByReads i s :=
  of_noWrite (u.setPc (u.pc + 1)) h

/-- `i` completes with the write of `v` to the listed register `a`. -/
theorem of_complete_setReg (u : State) (a : RegIdx) (v : Word) (ha : a ∈ writesOf i s)
    (h : ∀ x, AgreesOnReads i s x → exec i (s.withRegs x) = complete ((u.withRegs x).setReg a v)) :
    DecidedByReads i s :=
  ⟨u.setPc (u.pc + 1), some (a, v), by simpa using ha, h⟩

/-! Instruction by instruction; `simp_all` puts the registers of `s` for the read registers of `s.withRegs x`. -/

variable (a b c : RegIdx) (imm : Imm) (s : State)

theorem cmov : DecidedByReads (.cmov a b c) s := by
  by_cases e : s.reg c = 0
  · have hz := (isZero_iff _).2 e
    exact of_complete s fun x h => exec_cmov_skip (by rw [h c (by simp [readsOf, hz]), e])
  · have hz := (isZero_eq_false _).2 e
    refine of_complete_setReg s a (s.reg b) (by simp [writesOf, hz]) fun x h => ?_
    have hb := h b (by simp [readsOf, hz])
    have hc := h c (by simp [readsOf, hz])
    rw [exec_cmov_move (by rwa [hc]), hb]

theorem sload : DecidedByReads (.sload a b c) s := by
  cases e : mgrRead s.mem (s.reg b) (s.reg c) with
  | none => exact of_stop .memFault fun x h => exec_sload_fault (by simp_all [AgreesOnReads, readsOf])
  | some v =>
    exact of_complete_setReg s a v (by simp [writesOf]) fun x h =>
      exec_sload_ok (by simp_all [AgreesOnReads, readsOf])

theorem sstore : DecidedByReads (.sstore a b c) s := by
  cases e : mgrWrite s.mem (s.reg a) (s.reg b) (s.reg c) with
  | none => exact of_stop .memFault fun x h => exec_sstore_fault (by simp_all [AgreesOnReads, readsOf])
  | some m => exact of_complete (s.setMem m) fun x h => exec_sstore_ok (by simp_all [AgreesOnReads, readsOf])

theorem add : DecidedByReads (.add a b c) s :=
  of_complete_setReg s a (add32 (s.reg b) (s.reg c)) (by simp [writesOf]) fun x h => by
    simp_all [exec, execAdd, AgreesOnReads, readsOf]

theorem mul : DecidedByReads (.mul a b c) s :=
  of_complete_setReg s a (mul32 (s.reg b) (s.reg c)) (by simp [writesOf]) fun x h => by
    simp_all [exec, execMul, AgreesOnReads, readsOf]

theorem div : DecidedByReads (.div a b c) s := by
  by_cases e : s.reg c = 0
  · exact of_stop .divZero fun x h => exec_div_zero (by simp_all [AgreesOnReads, readsOf])
  · have hz := (isZero_eq_false _).2 e
    refine of_complete_setReg s a (divU32 (s.reg b) (s.reg c)) (by simp [writesOf, hz]) fun x h => ?_
    have hb := h b (by simp [readsOf])
    have hc := h c (by simp [readsOf])
    rw [exec_div_quotient (by rwa [hc]), hb, hc]

theorem nand : DecidedByReads (.nand a b c) s :=
  of_complete_setReg s a (nand32 (s.reg b) (s.reg c)) (by simp [writesOf]) fun x h => by
    simp_all [exec, execNand, AgreesOnReads, readsOf]

theorem halt : DecidedByReads .halt s := of_noWrite (s.setRun .halted) fun _ _ => rfl

theorem map : DecidedByReads (.map b c) s := by
  cases e : mgrAlloc s.mem (s.reg c) with
  | none => exact of_stop .memFault fun x h => exec_map_fault (by simp_all [AgreesOnReads, readsOf])
  | some p =>
    exact of_complete_setReg (s.setMem p.2) b p.1 (by simp [writesOf]) fun x h =>
      exec_map_ok (by simp_all [AgreesOnReads, readsOf])

theorem unmap : DecidedByReads (.unmap c) s := by
  cases e : mgrFree s.mem (s.reg c) with
  | none => exact of_stop .memFault fun x h => exec_unmap_fault (by simp_all [AgreesOnReads, readsOf])
  | some m => exact of_complete (s.setMem m) fun x h => exec_unmap_ok (by simp_all [AgreesOnReads, readsOf])

theorem out : DecidedByReads (.out c) s := by
  by_cases e : 255 < (s.reg c).toNat
  · exact of_stop .consoleRange fun x h => exec_out_range (by simp_all [AgreesOnReads, readsOf])
  · cases hr : s.console.outReady with
    | true =>
      refine of_complete (s.setConsole (conOut s.console (lowByte (s.reg c)))) fun x h => ?_
      have hc := h c (by simp [readsOf])
      rw [exec_out_emit (by rw [hc]; omega) (by exact hr), hc]
      rfl
    | false => exact of_noWrite s fun x h => exec_out_wait (by simp_all [AgreesOnReads, readsOf]) hr

theorem inp : DecidedByReads (.inp c) s := by
  cases e : s.console.input with
  | cons byte rest =>
    exact of_complete_setReg (s.setConsole { s.console with input := rest }) c (byteValue byte) (by simp [writesOf])
      fun _ _ => exec_inp_byte e
  | nil =>
    cases he : s.console.inputEnded with
    | true => exact of_complete_setReg s c Config.eosWord (by simp [writesOf]) fun _ _ => exec_inp_eos e he
    | false => exact of_noWrite s fun _ _ => exec_inp_wait e he

theorem loadprog : DecidedByReads (.loadprog b c) s := by
  have reads {x} (h : AgreesOnReads (.loadprog b c) s x) :
      (s.withRegs x).reg b = s.reg b ∧ (s.withRegs x).reg c = s.reg c := by simpa [AgreesOnReads, readsOf] using h
  by_cases e : s.reg b = 0
  · refine of_noWrite (s.setPc (s.reg c)) fun x h => ?_
    obtain ⟨hb, hc⟩ := reads h
    rw [exec_loadprog_jump (by rwa [hb]), hc]
    rfl
  · cases hm : mgrReplace0 s.mem (s.reg b) with
    | none =>
      refine of_stop .memFault fun x h => ?_
      obtain ⟨hb, -⟩ := reads h
      exact exec_loadprog_fault (by rwa [hb]) (by rwa [hb])
    | some m =>
      refine of_noWrite ((s.setMem m).setPc (s.reg c)) fun x h => ?_
      obtain ⟨hb, hc⟩ := reads h
      rw [exec_loadprog_copy (m := m) (by rwa [hb]) (by rwa [hb]), hc]
      rfl

theorem loadimm : DecidedByReads (.loadimm a imm) s :=
  of_complete_setReg s a (immValue imm) (by simp [writesOf]) fun _ _ => rfl

theorem invalid14 : DecidedByReads .invalid14 s := of_stop .invalidOpcode fun _ _ => rfl

theorem invalid15 : DecidedByReads .invalid15 s := of_stop .invalidOpcode fun _ _ => rfl

end DecidedByReads

/-- Every instruction is decided by the registers it reads. -/
theorem exec_decidedByReads (i : Instr) (s : State) : DecidedByReads i s := by
  cases i with
  | cmov a b c => exact .cmov a b c s
  | sload a b c => exact .sload a b c s
  | sstore a b c => exact .sstore a b c s
  | add a b c => exact .add a b c s
  | mul a b c => exact .mul a b c s
  | div a b c => exact .div a b c s
  | nand a b c => exact .nand a b c s
  | halt => exact .halt s
  | map b c => exact .map b c s
  | unmap c => exact .unmap c s
  | out c => exact .out c s
  | inp c => exact .inp c s
  | loadprog b c => exact .loadprog b c s
  | loadimm a imm => exact .loadimm a imm s
  | invalid14 => exact .invalid14 s
  | invalid15 => exact .invalid15 s

/-! ### The statement -/

/-- Writing a register that `i` does not read leaves the ones it reads. -/
theorem agreesOnReads_setReg {i : Instr} {s : State} {r : RegIdx} {v : Word} (h : r ∉ readsOf i s) :
    AgreesOnReads i s (s.setReg r v).regs :=
  fun _ hq => reg_setReg_other _ _ _ (ne_of_mem_of_not_mem hq h)

/-- Settles O33: with the register file exchanged for that of `s` or of `s.setReg r v`, the instruction leaves the same
rest and makes the same write. -/
theorem instructionsReadAndWriteOnlyTheirRegisters : Obligations.InstructionsReadAndWriteOnlyTheirRegisters := by
  intro i s t ht
  obtain ⟨u, w, hlisted, hexec⟩ := exec_decidedByReads i s
  obtain rfl : (u.withRegs s.regs).writeBack w = t := by
    have hs : exec i s = .next ((u.withRegs s.regs).writeBack w) := hexec s.regs fun _ _ => rfl
    simpa [hs] using ht
  refine ⟨fun r hr => reg_writeBack_of_ne _ _ fun p hp => ne_of_mem_of_not_mem (hlisted p hp) hr, fun r v hr => ?_⟩
  refine ⟨(u.withRegs (s.setReg r v).regs).writeBack w, hexec _ (agreesOnReads_setReg hr), by simp, by simp, by simp,
    by simp, fun q hq => reg_writeBack_congr w (reg_setReg_other s r v hq), ?_⟩
  by_cases hw : ∀ p ∈ w, p.1 ≠ r
  · right
    simp [reg_writeBack_of_ne _ w hw]
  · left
    obtain ⟨p, rfl, rfl⟩ : ∃ p, w = some p ∧ p.1 = r := by simpa using hw
    rw [reg_writeBack_of_eq, reg_writeBack_of_eq]

end Sys2Proof.Machine
end

/-! SUPPORT. The statements of 20_memory.md about the initial segment 0, the fetch, stores into the running program and
the copy that LOADPROG makes. -/

section
namespace Sys2Proof.Machine

open Sys2Proof.Claims

/-! ### The words read after a request (R59 to R62) -/

/-- No word beyond the length of a segment is read (R60). -/
theorem mgrRead_eq_none_of_len_le {m : Memory} {id off : Word} {g : Segment} (hg : segmentAt m id = some g)
    (h : g.len.toNat ≤ off.toNat) : mgrRead m id off = none :=
  mgrRead_eq_none.2 fun g' hg' => by
    obtain rfl : g = g' := Option.some.inj (hg.symm.trans hg')
    exact h

/-- The word an accepted WRITE left at its address. -/
theorem mgrRead_mgrWrite_same {m m' : Memory} {id off v : Word} (e : mgrWrite m id off v = some m') :
    mgrRead m' id off = some v := by
  rw [mgrRead_mgrWrite e, if_pos ⟨rfl, rfl⟩]

theorem mgrRead_mgrWrite_of_ne {m m' : Memory} {id off v j : Word} (e : mgrWrite m id off v = some m') (h : j ≠ id)
    (k : Word) : mgrRead m' j k = mgrRead m j k := by
  rw [mgrRead_mgrWrite e, if_neg fun hj => h hj.1]

theorem mgrRead_mgrFree_of_ne {m m' : Memory} {id j : Word} (e : mgrFree m id = some m') (h : j ≠ id) (k : Word) :
    mgrRead m' j k = mgrRead m j k :=
  mgrRead_of_segmentAt (by rw [segmentAt_mgrFree e, if_neg h]) k

/-- Segment 0 reads as the segment it is a copy of. -/
theorem mgrRead_mgrReplace0_zero {m m' : Memory} {id : Word} (e : mgrReplace0 m id = some m') (k : Word) :
    mgrRead m' 0 k = mgrRead m id k :=
  mgrRead_of_segmentAt (by rw [segmentAt_mgrReplace0 e, if_pos rfl]) k

/-! ### The initial address space (R56) -/

theorem segmentAt_mgrInit_zero (prog : List Word) : segmentAt (mgrInit prog) 0 = some (segmentOfWords prog) :=
  rfl

theorem segmentAt_mgrInit_of_ne_zero (prog : List Word) {id : Word} (h : id ≠ 0) :
    segmentAt (mgrInit prog) id = none := by
  have hid : id.toNat ≠ 0 := fun e => h (BitVec.eq_of_toNat_eq e)
  obtain ⟨n, hn⟩ := Nat.exists_eq_succ_of_ne_zero hid
  simp [segmentAt, mgrInit, hn]

theorem segmentOfWords_len {ws : List Word} (h : ws.length < 2 ^ 32) : (segmentOfWords ws).len.toNat = ws.length :=
  Nat.mod_eq_of_lt h

theorem mgrRead_mgrInit {prog : List Word} (h : prog.length < 2 ^ 32) (off : Word) :
    mgrRead (mgrInit prog) 0 off = prog[off.toNat]? := by
  by_cases hoff : off.toNat < prog.length
  · have hcell : prog[off.toNat] = cellRead (cellsFrom 0 prog) off.toNat := by
      simpa using (cellRead_from 0 off.toNat prog hoff).symm
    rw [List.getElem?_eq_getElem hoff, mgrRead_eq_some]
    exact ⟨_, segmentAt_mgrInit_zero prog, by rwa [segmentOfWords_len h], hcell⟩
  · have hlen : prog.length ≤ off.toNat := Nat.le_of_not_lt hoff
    rw [List.getElem?_eq_none hlen]
    exact mgrRead_eq_none_of_len_le (segmentAt_mgrInit_zero prog) (by rwa [segmentOfWords_len h])

/-- Settles O40: the words of `prog`, listed from 0, read back in their places, and the table holds segment 0 alone. -/
theorem initInstallsTheProgram : Obligations.InitInstallsTheProgram := fun prog h =>
  ⟨mgrRead_mgrInit h, fun _ hid => segmentAt_mgrInit_of_ne_zero prog hid, rfl, _, segmentAt_mgrInit_zero prog,
    segmentOfWords_len h⟩

/-! ### The copy (R79) -/

/-- The segment that was copied is still active, and a non-zero id can be freed. -/
theorem mgrFree_after_mgrReplace0 {m m' : Memory} {id : Word} (h : id ≠ 0) (e : mgrReplace0 m id = some m') :
    ∃ m'', mgrFree m' id = some m'' := by
  obtain ⟨g, hg, -⟩ := mgrReplace0_eq_some.1 e
  have hactive : segmentAt m' id = some g := by rw [segmentAt_mgrReplace0 e, if_neg h, hg]
  exact ⟨_, mgrFree_eq_some.2 ⟨h, ⟨g, hactive⟩, rfl⟩⟩

/-- Settles O42: after the copy a WRITE or FREE at one of the two ids concerns the other no more. -/
theorem replacedProgramIsACopy : Obligations.ReplacedProgramIsACopy := by
  intro m m' id hid e
  refine ⟨fun off v m'' ew => mgrRead_mgrWrite_of_ne ew hid.symm, fun off v m'' ew => mgrRead_mgrWrite_of_ne ew hid, ?_⟩
  obtain ⟨m'', ef⟩ := mgrFree_after_mgrReplace0 hid e
  exact ⟨m'', ef, mgrRead_mgrFree_of_ne ef hid.symm⟩

/-! ### Stores into the program, and the program exchanged (R77) -/

/-- An SSTORE that did not stop has had its WRITE accepted. -/
theorem exec_sstore_running {a b c : RegIdx} {s t : State} (h : exec (.sstore a b c) s = .next t)
    (hr : t.run = .running) :
    ∃ m, mgrWrite s.mem (s.reg a) (s.reg b) (s.reg c) = some m ∧ t = (s.setMem m).setPc (s.pc + 1) := by
  cases e : mgrWrite s.mem (s.reg a) (s.reg b) (s.reg c) with
  | none =>
    rw [exec_sstore_fault e] at h
    cases h
    simp at hr
  | some m =>
    rw [exec_sstore_ok e] at h
    cases h
    exact ⟨m, rfl, rfl⟩

/-- A LOADPROG of a non-zero id that did not stop has had its REPLACE0 accepted. -/
theorem exec_loadprog_running {b c : RegIdx} {s t : State} (hb : s.reg b ≠ 0) (h : exec (.loadprog b c) s = .next t)
    (hr : t.run = .running) :
    ∃ m, mgrReplace0 s.mem (s.reg b) = some m ∧ t = (s.setMem m).setPc (s.reg c) := by
  cases e : mgrReplace0 s.mem (s.reg b) with
  | none =>
    rw [exec_loadprog_fault hb e] at h
    cases h
    simp at hr
  | some m =>
    rw [exec_loadprog_copy hb e] at h
    cases h
    exact ⟨m, rfl, rfl⟩

/-- Part (a): every running state with the stored memory and `pc` at the word executes it. -/
theorem step_of_stored_word {a b c : RegIdx} {s t u : State} (ha : s.reg a = 0) (h : exec (.sstore a b c) s = .next t)
    (ht : t.run = .running) (hu : u.run = .running) (hm : u.mem = t.mem) (hp : u.pc = s.reg b) :
    step u = exec (decode (s.reg c)) u := by
  obtain ⟨m, e, rfl⟩ := exec_sstore_running h ht
  rw [ha] at e
  have hf : fetch u = some (s.reg c) := by
    rw [fetch, hm, hp]
    exact mgrRead_mgrWrite_same e
  exact step_running_fetched hu hf

/-- Part (b): the fetch after a LOADPROG reads the copy. -/
theorem fetch_of_loadprog {b c : RegIdx} {s t : State} (hb : s.reg b ≠ 0) (h : exec (.loadprog b c) s = .next t)
    (ht : t.run = .running) : fetch t = mgrRead s.mem (s.reg b) (s.reg c) := by
  obtain ⟨m, e, rfl⟩ := exec_loadprog_running hb h ht
  exact mgrRead_mgrReplace0_zero e (s.reg c)

/-- Part (c): a store onto the running word was fetched, so its address is valid and it completes. -/
theorem step_of_store_onto_itself {a b c : RegIdx} {s t : State} {w : Word} (hr : s.run = .running)
    (hf : fetch s = some w) (hd : decode w = .sstore a b c) (ha : s.reg a = 0) (hb : s.reg b = s.pc)
    (h : step s = .next t) :
    t.pc = s.pc + 1 ∧ t.run = .running ∧ mgrRead t.mem 0 s.pc = some (s.reg c) := by
  rw [step_running_fetched hr hf, hd] at h
  cases e : mgrWrite s.mem (s.reg a) (s.reg b) (s.reg c) with
  | none =>
    have hread : mgrRead s.mem 0 s.pc = none := by
      rw [← ha, ← hb]
      exact mgrWrite_eq_none.1 e
    rw [fetch, hread] at hf
    cases hf
  | some m =>
    rw [exec_sstore_ok e] at h
    cases h
    rw [ha, hb] at e
    exact ⟨rfl, hr, mgrRead_mgrWrite_same e⟩

/-- Settles O43: an accepted WRITE or REPLACE0 leaves the word that the fetch then reads. -/
theorem storedProgramWordsAreFetched : Obligations.StoredProgramWordsAreFetched :=
  ⟨fun _ _ _ _ _ _ _ ha h ht hu hm hp => step_of_stored_word ha h ht hu hm hp,
    fun _ _ _ _ hb _ h ht => fetch_of_loadprog hb h ht,
    fun _ _ _ _ _ _ hr hf hd ha hb h => step_of_store_onto_itself hr hf hd ha hb h⟩

/-! ### FETCH_OOB is the fetch's own stop (R53) -/

/-- A stop changes nothing but `run` (60_exceptions.md R195). -/
theorem stoppedFrom_setRun (cause : Cause) (s : State) : stoppedFrom cause s (s.setRun (.stopped cause)) :=
  ⟨rfl, rfl, fun _ => rfl, ⟨rfl, fun _ _ => rfl⟩, rfl⟩

/-- The answer is a next state that has not stopped with FETCH_OOB. -/
def AvoidsFetchOob (r : Result) : Prop := ∃ t, r = .next t ∧ t.run ≠ .stopped .fetchOob

namespace AvoidsFetchOob
variable {s : State}

theorem raiseFatal {cause : Cause} (h : cause ≠ .fetchOob) : AvoidsFetchOob (raiseFatal cause s) :=
  ⟨_, raiseFatal_eq cause s, by simpa using h⟩

theorem next (hr : s.run = .running) : AvoidsFetchOob (.next s) := ⟨s, rfl, by simp [hr]⟩

theorem complete (hr : s.run = .running) : AvoidsFetchOob (complete s) := next hr

theorem jump (target : Word) (hr : s.run = .running) : AvoidsFetchOob (jump target s) := next hr

theorem stopHalted : AvoidsFetchOob (stopHalted s) := ⟨_, stopHalted_eq s, by simp⟩

/-- The manager's fault stops with MEM_FAULT. -/
theorem onAnswer {α : Type} {answer : Option α} {k : α → Result} (h : ∀ v, AvoidsFetchOob (k v)) :
    AvoidsFetchOob (onAnswer answer s k) := by
  cases answer with
  | none => exact raiseFatal (by decide)
  | some v => exact h v

theorem ite {p : Prop} [Decidable p] {r r' : Result} (h : AvoidsFetchOob r) (h' : AvoidsFetchOob r') :
    AvoidsFetchOob (if p then r else r') := by
  split
  · exact h
  · exact h'

end AvoidsFetchOob

/-- No instruction stops with FETCH_OOB. -/
theorem exec_avoidsFetchOob (i : Instr) {s : State} (hr : s.run = .running) : AvoidsFetchOob (exec i s) := by
  cases i with
  | cmov a b c => exact .complete (by split <;> exact hr)
  | sload a b c => exact .onAnswer fun _ => .complete hr
  | sstore a b c => exact .onAnswer fun _ => .complete hr
  | add a b c => exact .complete hr
  | mul a b c => exact .complete hr
  | div a b c => exact .ite (.raiseFatal (by decide)) (.complete hr)
  | nand a b c => exact .complete hr
  | halt => exact .stopHalted
  | map b c => exact .onAnswer fun _ => .complete hr
  | unmap c => exact .onAnswer fun _ => .complete hr
  | out c => exact .ite (.raiseFatal (by decide)) (.ite (.complete hr) (.next hr))
  | inp c =>
    simp only [exec, execInp]
    split
    · exact .next hr
    · exact .complete hr
    · exact .ite (.raiseFatal (by decide)) (.complete hr)
  | loadprog b c => exact .ite (.jump _ hr) (.onAnswer fun _ => .jump _ hr)
  | loadimm a imm => exact .complete hr
  | invalid14 => exact .raiseFatal (by decide)
  | invalid15 => exact .raiseFatal (by decide)

/-- Settles O25: the fetch's fault is a stop with FETCH_OOB, and no instruction has that stop. -/
theorem fetchStopsExactlyOutOfBounds : Obligations.FetchStopsExactlyOutOfBounds := by
  intro s g hr hg
  constructor
  · intro h
    obtain ⟨w, hf⟩ : ∃ w, fetch s = some w := ⟨_, mgrRead_eq_some.2 ⟨g, hg, h, rfl⟩⟩
    obtain ⟨t, ht, hrun⟩ := exec_avoidsFetchOob (decode w) hr
    have hstep := step_running_fetched hr hf
    exact ⟨w, t, hf, hstep, hstep.trans ht, hrun⟩
  · intro h
    exact ⟨_, step_running_outOfBounds hr (mgrRead_eq_none_of_len_le hg h), stoppedFrom_setRun .fetchOob s⟩

end Sys2Proof.Machine
end

/-! SUPPORT. The opcode field (30_encoding.md R97): what it is in a word that is decoded, and in a canonical word. -/

section
namespace Sys2Proof

open Sys2Proof.Laws

/-- The decoder picks the row of the opcode field: 4 bits hold sixteen values, one for each arm. -/
theorem opcode_decode (w : Word) : (decode w).opcode = field w 4 28 := by
  have hlt : field w 4 28 < 16 := field_lt w 4 28
  unfold decode
  interval_cases field w 4 28 <;> rfl

/-- Every canonical word carries its row's opcode, format R3 or LI. -/
theorem field_encode_opcode (i : Instr) : field (encode i) 4 28 = i.opcode := by
  cases i with
  | cmov a b c => exact OpcodeField.cmov a b c
  | sload a b c => exact OpcodeField.sload a b c
  | sstore a b c => exact OpcodeField.sstore a b c
  | add a b c => exact OpcodeField.add a b c
  | mul a b c => exact OpcodeField.mul a b c
  | div a b c => exact OpcodeField.div a b c
  | nand a b c => exact OpcodeField.nand a b c
  | halt => exact OpcodeField.halt
  | map b c => exact OpcodeField.map b c
  | unmap c => exact OpcodeField.unmap c
  | out c => exact OpcodeField.out c
  | inp c => exact OpcodeField.inp c
  | loadprog b c => exact OpcodeField.loadprog b c
  | loadimm a imm => exact OpcodeField.loadimm a imm
  | invalid14 => exact OpcodeField.invalid14
  | invalid15 => exact OpcodeField.invalid15

/-- Settles O4: the opcode field is bits 31:28, the decoder follows it, and the mask keeps it in place. -/
theorem opcodeFieldAloneSelectsTheInstruction : Obligations.OpcodeFieldAloneSelectsTheInstruction := by
  refine ⟨fun w => (opcode_decode w).trans (field_opcode w), fun i => ?_⟩
  calc (encode i &&& (0xF0000000 : Word)).toNat
      = (encode i).toNat / 2 ^ 28 * 2 ^ 28 := toNat_and_opcodeBits (encode i)
    _ = i.opcode * 2 ^ 28 := by rw [← field_opcode, field_encode_opcode]

end Sys2Proof
end

/-! SUPPORT. The statements of 40_alu.md: the instructions that touch only the register file, each as its encoding, its
result, and its completion (which writes at most `x[A]`) or stop. -/

section
namespace Sys2Proof.Machine

open Sys2Proof.Claims

/-! ### The register fields as the encodings print them -/

section Fields
variable {w : Word}

theorem fieldA_eq {a : RegIdx} (h : w.toNat / 64 % 8 = a.val) : fieldA w = a := regField_eq h

theorem fieldB_eq {b : RegIdx} (h : w.toNat / 8 % 8 = b.val) : fieldB w = b := regField_eq h

theorem fieldC_eq {c : RegIdx} (h : w.toNat % 8 = c.val) : fieldC w = c := regField_eq (by rwa [pow_zero, Nat.div_one])

theorem fieldALI_eq {a : RegIdx} (h : w.toNat / 2 ^ 25 % 8 = a.val) : fieldALI w = a := regField_eq h

theorem fieldImm_eq {imm : Imm} (h : w.toNat % 2 ^ 25 = imm.toNat) : fieldImm w = imm := by
  apply BitVec.eq_of_toNat_eq
  simpa [fieldImm, field] using h

end Fields

/-- A row of format R3 with the operands A, B and C: its arms of `encode` and `decode` give the printed encoding. -/
theorem encodedABC_of_arms {op : Nat} {row : RegIdx → RegIdx → RegIdx → Instr} (hop : op < 16)
    (henc : ∀ a b c : RegIdx, encode (row a b c) = wordR3 op a b c)
    (hdec : ∀ w, field w 4 28 = op → decode w = row (fieldA w) (fieldB w) (fieldC w)) (a b c : RegIdx) :
    encodedABC op a b c (row a b c) := by
  constructor
  · rw [henc, wordR3_toNat hop]
  · intro w ho ha hb hc
    rw [hdec w ((field_opcode w).trans ho), fieldA_eq ha, fieldB_eq hb, fieldC_eq hc]

theorem encodedABC_cmov (a b c : RegIdx) : encodedABC 0 a b c (.cmov a b c) :=
  encodedABC_of_arms (by decide) (fun _ _ _ => rfl) (fun w h => by simp [decode, h]) a b c

theorem encodedABC_add (a b c : RegIdx) : encodedABC 3 a b c (.add a b c) :=
  encodedABC_of_arms (by decide) (fun _ _ _ => rfl) (fun w h => by simp [decode, h]) a b c

theorem encodedABC_mul (a b c : RegIdx) : encodedABC 4 a b c (.mul a b c) :=
  encodedABC_of_arms (by decide) (fun _ _ _ => rfl) (fun w h => by simp [decode, h]) a b c

theorem encodedABC_div (a b c : RegIdx) : encodedABC 5 a b c (.div a b c) :=
  encodedABC_of_arms (by decide) (fun _ _ _ => rfl) (fun w h => by simp [decode, h]) a b c

theorem encodedABC_nand (a b c : RegIdx) : encodedABC 6 a b c (.nand a b c) :=
  encodedABC_of_arms (by decide) (fun _ _ _ => rfl) (fun w h => by simp [decode, h]) a b c

theorem encodedLI_loadimm (a : RegIdx) (imm : Imm) : encodedLI 13 a imm (.loadimm a imm) := by
  constructor
  · exact wordLI_toNat (by decide) a imm
  · intro w ho ha hi
    have hdec : decode w = .loadimm (fieldALI w) (fieldImm w) := by simp [decode, (field_opcode w).trans ho]
    rw [hdec, fieldALI_eq ha, fieldImm_eq hi]

/-! ### The results (R126) -/

section Results
variable (b c : Word)

theorem toNat_add32 : (add32 b c).toNat = (b.toNat + c.toNat) % 2 ^ 32 := BitVec.toNat_add b c

theorem toNat_mul32 : (mul32 b c).toNat = (b.toNat * c.toNat) % 2 ^ 32 := BitVec.toNat_mul b c

/-- A quotient is at most its dividend, so 32 bits hold it. -/
theorem toNat_divU32 : (divU32 b c).toNat = b.toNat / c.toNat :=
  Nat.mod_eq_of_lt ((Nat.div_le_self _ _).trans_lt b.isLt)

theorem toNat_nand32 : (nand32 b c).toNat = 2 ^ 32 - 1 - (b &&& c).toNat := BitVec.toNat_not

theorem getLsbD_nand32 {k : Nat} (hk : k < 32) : (nand32 b c).getLsbD k = !(b.getLsbD k && c.getLsbD k) := by
  simp [nand32, hk]

/-- 32 bits hold a literal of 25 bits. -/
theorem toNat_immValue (imm : Imm) : (immValue imm).toNat = imm.toNat :=
  Nat.mod_eq_of_lt (imm.isLt.trans (by decide))

end Results

/-! ### How an instruction of the register file ends -/

section Ends
variable {i : Instr} {s : State} {a : RegIdx}

theorem writesOnlyReg_setPc_setReg (a : RegIdx) (v : Word) (s : State) :
    writesOnlyReg a s ((s.setReg a v).setPc (s.pc + 1)) :=
  ⟨fun _ h => reg_setReg_other s a v h, ⟨rfl, rfl⟩, ⟨rfl, fun _ _ => rfl⟩, rfl⟩

theorem writesOnlyReg_setPc (a : RegIdx) (s : State) : writesOnlyReg a s (s.setPc (s.pc + 1)) :=
  ⟨fun _ _ => rfl, ⟨rfl, rfl⟩, ⟨rfl, fun _ _ => rfl⟩, rfl⟩

/-- The completion of an instruction whose one write is `v` to register `a`. -/
theorem exists_next_of_complete_setReg {v : Word} (h : exec i s = complete (s.setReg a v)) :
    ∃ t, exec i s = .next t ∧ t.reg a = v ∧ writesOnlyReg a s t :=
  ⟨_, h, reg_setReg_same s a v, writesOnlyReg_setPc_setReg a v s⟩

theorem stopsWith_of_raiseFatal {cause : Cause} (h : exec i s = raiseFatal cause s) : stopsWith cause i s :=
  ⟨_, h, stoppedFrom_setRun cause s⟩

end Ends

theorem stopsWith_div_zero (a b c : RegIdx) {s : State} (h : s.reg c = 0) : stopsWith .divZero (.div a b c) s :=
  stopsWith_of_raiseFatal (exec_div_zero h)

/-! ### The statements -/

/-- Settles O10: a divisor that is not 0 gives the quotient, which fits in 32 bits; a zero divisor stops. -/
theorem divWritesTheQuotientOrStops : Obligations.DivWritesTheQuotientOrStops := by
  intro a b c s
  refine ⟨encodedABC_div a b c, fun hc => ?_, stopsWith_div_zero a b c⟩
  obtain ⟨t, ht, hv, hw⟩ := exists_next_of_complete_setReg (exec_div_quotient (a := a) (b := b) hc)
  exact ⟨t, ht, by rw [hv, toNat_divU32], hw⟩

/-- Settles O7: the move is a register write, and without it the instruction only completes. -/
theorem cmovMovesIffConditionIsNonzero : Obligations.CmovMovesIffConditionIsNonzero := by
  intro a b c s
  refine ⟨encodedABC_cmov a b c, ?_⟩
  by_cases hc : s.reg c = 0
  · exact ⟨_, exec_cmov_skip hc, fun hne => absurd hc hne, fun _ => rfl, writesOnlyReg_setPc a s⟩
  · obtain ⟨t, ht, hv, hw⟩ := exists_next_of_complete_setReg (exec_cmov_move (a := a) (b := b) hc)
    exact ⟨t, ht, fun _ => hv, fun h0 => absurd h0 hc, hw⟩

/-- Settles O8: the write is `add32`, the sum mod 2^32. -/
theorem addWritesTheSumModulo : Obligations.AddWritesTheSumModulo := by
  intro a b c s
  obtain ⟨t, ht, hv, hw⟩ := exists_next_of_complete_setReg (i := .add a b c) (s := s) rfl
  exact ⟨encodedABC_add a b c, t, ht, by rw [hv, toNat_add32], hw⟩

/-- Settles O9: the write is `mul32`, the product mod 2^32. -/
theorem mulWritesTheProductModulo : Obligations.MulWritesTheProductModulo := by
  intro a b c s
  obtain ⟨t, ht, hv, hw⟩ := exists_next_of_complete_setReg (i := .mul a b c) (s := s) rfl
  exact ⟨encodedABC_mul a b c, t, ht, by rw [hv, toNat_mul32], hw⟩

/-- Settles O11: the write is `nand32`, by its number and bit by bit. -/
theorem nandWritesTheComplementOfTheAnd : Obligations.NandWritesTheComplementOfTheAnd := by
  intro a b c s
  obtain ⟨t, ht, hv, hw⟩ := exists_next_of_complete_setReg (i := .nand a b c) (s := s) rfl
  exact ⟨encodedABC_nand a b c, t, ht, by rw [hv, toNat_nand32],
    fun k hk => by rw [hv, getLsbD_nand32 _ _ hk], hw⟩

/-- Settles O12: the write is `immValue`, and 32 bits hold the literal. -/
theorem loadimmWritesTheZeroExtendedLiteral : Obligations.LoadimmWritesTheZeroExtendedLiteral := by
  intro a imm s
  obtain ⟨t, ht, hv, hw⟩ := exists_next_of_complete_setReg (i := .loadimm a imm) (s := s) rfl
  exact ⟨encodedLI_loadimm a imm, t, ht, by rw [hv, toNat_immValue], hw⟩

/-- Settles O13: the laws of the four results, and DIV's stop in place of a quotient by 0. -/
theorem arithmeticIsExactModuloTwoPow32 : Obligations.ArithmeticIsExactModuloTwoPow32 := by
  intro b c
  have hquot : (divU32 b c).toNat ≤ b.toNat := (toNat_divU32 b c).trans_le (Nat.div_le_self _ _)
  exact ⟨toNat_add32 b c, toNat_mul32 b c, fun _ => ⟨toNat_divU32 b c, hquot⟩,
    fun x y z _ hz => stopsWith_div_zero x y z hz, toNat_nand32 b c, fun _ hk => getLsbD_nand32 b c hk⟩

end Sys2Proof.Machine
end

/-! SUPPORT. The statements of 41_segment.md: the segment instructions, each as its encoding and the manager's answer.
An `ok` completes the instruction with the manager's new memory or the word read; a `fault` stops it. -/

section
namespace Sys2Proof.Machine

open Sys2Proof.Claims

/-! ### Encodings -/

theorem encodedABC_sload (a b c : RegIdx) : encodedABC 1 a b c (.sload a b c) :=
  encodedABC_of_arms (by decide) (fun _ _ _ => rfl) (fun w h => by simp [decode, h]) a b c

theorem encodedABC_sstore (a b c : RegIdx) : encodedABC 2 a b c (.sstore a b c) :=
  encodedABC_of_arms (by decide) (fun _ _ _ => rfl) (fun w h => by simp [decode, h]) a b c

/-- A row of format R3 with the operand C alone: its arms of `encode` and `decode` give the printed encoding. -/
theorem encodedC_of_arms {op : Nat} {row : RegIdx → Instr} (hop : op < 16)
    (henc : ∀ c : RegIdx, encode (row c) = wordR3 op 0 0 c)
    (hdec : ∀ w, field w 4 28 = op → decode w = row (fieldC w)) (c : RegIdx) : encodedC op c (row c) := by
  constructor
  · simpa [henc] using wordR3_toNat hop 0 0 c
  · intro w ho hc
    rw [hdec w ((field_opcode w).trans ho), fieldC_eq hc]

theorem encodedC_unmap (c : RegIdx) : encodedC 9 c (.unmap c) :=
  encodedC_of_arms (by decide) (fun _ => rfl) (fun w h => by simp [decode, h]) c

/-! ### Where the manager answers `ok` and where `fault` (R60, R61, R71) -/

section Addresses
variable {m : Memory} {id off : Word}

theorem exists_mgrRead_of_validAddress (h : validAddress m id off) : ∃ v, mgrRead m id off = some v := by
  obtain ⟨g, hg, hlt⟩ := h
  exact ⟨_, mgrRead_eq_some.2 ⟨g, hg, hlt, rfl⟩⟩

theorem exists_mgrWrite_of_validAddress (h : validAddress m id off) (v : Word) :
    ∃ m', mgrWrite m id off v = some m' := by
  obtain ⟨g, hg, hlt⟩ := h
  exact ⟨_, mgrWrite_eq_some.2 ⟨g, hg, hlt, rfl⟩⟩

theorem faultyAddress_iff_mgrRead : faultyAddress m id off ↔ mgrRead m id off = none := by
  cases hg : segmentAt m id with
  | none => simp [faultyAddress, mgrRead_eq_none, hg]
  | some g => simp [faultyAddress, mgrRead_eq_none, hg]

end Addresses

/-! ### What an `ok` leaves unchanged -/

section Frames
variable {m m' : Memory} {id off v : Word}

theorem segmentAt_len_mgrWrite (e : mgrWrite m id off v = some m') (j : Word) :
    (segmentAt m' j).map Segment.len = (segmentAt m j).map Segment.len := by
  rw [segmentAt_mgrWrite e]
  split
  · next hj => rw [hj, Option.map_map]; rfl
  · rfl

theorem mgrWrite_free (e : mgrWrite m id off v = some m') : m'.free = m.free := by
  obtain ⟨g, -, -, rfl⟩ := mgrWrite_eq_some.1 e
  exact putSegment_free m _ _

theorem mgrWrite_noStorage (e : mgrWrite m id off v = some m') : m'.noStorage = m.noStorage := by
  obtain ⟨g, -, -, rfl⟩ := mgrWrite_eq_some.1 e
  exact putSegment_noStorage m _ _

/-- The id freed is the next one given out. -/
theorem mgrFree_free (e : mgrFree m id = some m') : m'.free = id.toNat :: m.free := by
  obtain ⟨-, -, rfl⟩ := mgrFree_eq_some.1 e
  rfl

theorem mgrFree_noStorage (e : mgrFree m id = some m') : m'.noStorage = m.noStorage := by
  obtain ⟨-, -, rfl⟩ := mgrFree_eq_some.1 e
  rfl

theorem segmentAt_mgrFree_same (e : mgrFree m id = some m') : segmentAt m' id = none := by
  rw [segmentAt_mgrFree e, if_pos rfl]

/-- No offset of an id that is not active is valid. -/
theorem mgrRead_mgrFree_same (e : mgrFree m id = some m') (k : Word) : mgrRead m' id k = none :=
  faultyAddress_iff_mgrRead.1 (.inl (segmentAt_mgrFree_same e))

end Frames

/-- The completion of an instruction whose one effect is the manager's new memory. -/
theorem exists_next_of_complete_setMem {i : Instr} {s : State} {m : Memory} (h : exec i s = complete (s.setMem m)) :
    ∃ t, exec i s = .next t ∧ t.mem = m ∧ keepsRegs s t ∧ advances s t ∧ t.console = s.console :=
  ⟨_, h, rfl, fun _ => rfl, ⟨rfl, rfl⟩, rfl⟩

/-! ### The statements -/

/-- Settles O15: an accepted WRITE changes the one word at (x[A], x[B]); a WRITE faults exactly where a READ does. -/
theorem sstoreStoresOneWordOrStops : Obligations.SstoreStoresOneWordOrStops := by
  intro a b c s
  refine ⟨encodedABC_sstore a b c, fun hvalid => ?_, fun hfaulty => ?_⟩
  · obtain ⟨m, e⟩ := exists_mgrWrite_of_validAddress hvalid (s.reg c)
    obtain ⟨t, ht, rfl, hframe⟩ := exists_next_of_complete_setMem (exec_sstore_ok e)
    have hother : ∀ id off, (id ≠ s.reg a ∨ off ≠ s.reg b) → mgrRead t.mem id off = mgrRead s.mem id off :=
      fun id off hne => by rw [mgrRead_mgrWrite e, if_neg (not_and_or.2 hne)]
    exact ⟨t, ht, mgrRead_mgrWrite_same e, hother, segmentAt_len_mgrWrite e, mgrWrite_free e, mgrWrite_noStorage e,
      hframe⟩
  · have hfault : mgrWrite s.mem (s.reg a) (s.reg b) (s.reg c) = none :=
      mgrWrite_eq_none.2 (faultyAddress_iff_mgrRead.1 hfaulty)
    exact stopsWith_of_raiseFatal (exec_sstore_fault hfault)

/-- Settles O17: FREE is accepted exactly for an active id that is not 0, and takes that one segment away. -/
theorem unmapFreesTheIdOrStops : Obligations.UnmapFreesTheIdOrStops := by
  intro c s
  refine ⟨encodedC_unmap c, fun hne hactive => ?_, fun hfault => ?_⟩
  · obtain ⟨m, e⟩ : ∃ m, mgrFree s.mem (s.reg c) = some m :=
      ⟨_, mgrFree_eq_some.2 ⟨hne, Option.ne_none_iff_exists'.1 hactive, rfl⟩⟩
    obtain ⟨t, ht, rfl, hframe⟩ := exists_next_of_complete_setMem (exec_unmap_ok e)
    have hother : keepsOtherSegments (s.reg c) s t := fun j hj =>
      ⟨by rw [segmentAt_mgrFree e, if_neg hj], mgrRead_mgrFree_of_ne e hj⟩
    exact ⟨t, ht, segmentAt_mgrFree_same e, mgrRead_mgrFree_same e, mgrFree_free e, mgrFree_noStorage e, hother,
      hframe⟩
  · exact stopsWith_of_raiseFatal (exec_unmap_fault (mgrFree_eq_none.2 hfault))

/-- Settles O14: the word that READ answers is the one register write; where READ faults the instruction stops. -/
theorem sloadLoadsTheWordOrStops : Obligations.SloadLoadsTheWordOrStops := by
  intro a b c s
  refine ⟨encodedABC_sload a b c, fun hvalid => ?_, fun hfaulty => ?_⟩
  · obtain ⟨v, e⟩ := exists_mgrRead_of_validAddress hvalid
    obtain ⟨t, ht, rfl, hframe⟩ := exists_next_of_complete_setReg (exec_sload_ok (a := a) e)
    exact ⟨t, ht, e, hframe⟩
  · exact stopsWith_of_raiseFatal (exec_sload_fault (faultyAddress_iff_mgrRead.1 hfaulty))

end Sys2Proof.Machine
end

/-! SUPPORT. The statement of OUT (42_console.md R160): its encoding, the byte emitted, and the range stop. -/

section
namespace Sys2Proof.Machine

open Sys2Proof.Claims

theorem encodedC_out (c : RegIdx) : encodedC 10 c (.out c) :=
  encodedC_of_arms (by decide) (fun _ => rfl) (fun w h => by simp [decode, h]) c

/-- Below 256 the low byte holds the whole value. -/
theorem toNat_lowByte_of_le {v : Word} (h : v.toNat ≤ 255) : (lowByte v).toNat = v.toNat := by
  simp only [lowByte, BitVec.toNat_ofNat]
  omega

/-- The completion of an instruction whose one effect is on the console. -/
theorem exists_next_of_complete_setConsole {i : Instr} {s : State} {k : Console}
    (h : exec i s = complete (s.setConsole k)) :
    ∃ t, exec i s = .next t ∧ t.console = k ∧ keepsRegs s t ∧ advances s t ∧ keepsMemory s t :=
  ⟨_, h, rfl, fun _ => rfl, ⟨rfl, rfl⟩, ⟨rfl, fun _ _ => rfl⟩⟩

/-- Settles O18: the byte emitted is the low byte, which in the range is `x[C]`; out of the range the check stops the
instruction before the consumer is asked. -/
theorem outEmitsTheByteOrStops : Obligations.OutEmitsTheByteOrStops := by
  intro c s
  refine ⟨encodedC_out c, fun hrange hready => ?_, fun hrange => stopsWith_of_raiseFatal (exec_out_range hrange)⟩
  obtain ⟨t, ht, hconsole, hframe⟩ := exists_next_of_complete_setConsole (exec_out_emit hrange hready)
  exact ⟨t, ht, ⟨lowByte (s.reg c), toNat_lowByte_of_le hrange, hconsole⟩, hframe⟩

end Sys2Proof.Machine
end

/-! SUPPORT. The statements of 43_control.md: HALT, LOADPROG and the two invalid opcodes, each as its encoding and its
end. HALT and the invalid opcodes change `run` alone, LOADPROG jumps or stops. -/

section
namespace Sys2Proof.Machine

open Sys2Proof.Claims

/-! ### Encodings -/

/-- A row of format R3 with the operands B and C: its arms of `encode` and `decode` give the printed encoding. -/
theorem encodedBC_of_arms {op : Nat} {row : RegIdx → RegIdx → Instr} (hop : op < 16)
    (henc : ∀ b c : RegIdx, encode (row b c) = wordR3 op 0 b c)
    (hdec : ∀ w, field w 4 28 = op → decode w = row (fieldB w) (fieldC w)) (b c : RegIdx) :
    encodedBC op b c (row b c) := by
  constructor
  · simpa [henc] using wordR3_toNat hop 0 b c
  · intro w ho hb hc
    rw [hdec w ((field_opcode w).trans ho), fieldB_eq hb, fieldC_eq hc]

/-- A row without operands: its arms of `encode` and `decode` give the printed encoding. -/
theorem encodedPlain_of_arms {op : Nat} {i : Instr} (hop : op < 16) (henc : encode i = wordR3 op 0 0 0)
    (hdec : ∀ w, field w 4 28 = op → decode w = i) : encodedPlain op i := by
  constructor
  · simpa [henc] using wordR3_toNat hop 0 0 0
  · exact fun w ho => hdec w ((field_opcode w).trans ho)

theorem encodedBC_loadprog (b c : RegIdx) : encodedBC 12 b c (.loadprog b c) :=
  encodedBC_of_arms (by decide) (fun _ _ => rfl) (fun w h => by simp [decode, h]) b c

theorem encodedPlain_halt : encodedPlain 7 .halt :=
  encodedPlain_of_arms (by decide) rfl fun w h => by simp [decode, h]

theorem encodedPlain_invalid14 : encodedPlain 14 .invalid14 :=
  encodedPlain_of_arms (by decide) rfl fun w h => by simp [decode, h]

theorem encodedPlain_invalid15 : encodedPlain 15 .invalid15 :=
  encodedPlain_of_arms (by decide) rfl fun w h => by simp [decode, h]

/-! ### What an accepted REPLACE0 leaves unchanged (R62) -/

section Replace
variable {m m' : Memory} {id : Word}

theorem segmentAt_mgrReplace0_zero (e : mgrReplace0 m id = some m') : segmentAt m' 0 = segmentAt m id := by
  rw [segmentAt_mgrReplace0 e, if_pos rfl]

theorem segmentAt_mgrReplace0_of_ne (e : mgrReplace0 m id = some m') {j : Word} (h : j ≠ 0) :
    segmentAt m' j = segmentAt m j := by
  rw [segmentAt_mgrReplace0 e, if_neg h]

theorem mgrReplace0_free (e : mgrReplace0 m id = some m') : m'.free = m.free := by
  obtain ⟨g, -, rfl⟩ := mgrReplace0_eq_some.1 e
  exact putSegment_free m _ _

theorem mgrReplace0_noStorage (e : mgrReplace0 m id = some m') : m'.noStorage = m.noStorage := by
  obtain ⟨g, -, rfl⟩ := mgrReplace0_eq_some.1 e
  exact putSegment_noStorage m _ _

end Replace

/-! ### How a control instruction ends -/

theorem exec_halt (s : State) : exec .halt s = .next (s.setRun .halted) := rfl

theorem exec_invalid14 (s : State) : exec .invalid14 s = raiseFatal .invalidOpcode s := rfl

theorem exec_invalid15 (s : State) : exec .invalid15 s = raiseFatal .invalidOpcode s := rfl

/-- A jump, over the memory as it is or over the manager's new memory, changes nothing but `pc` and that memory. -/
theorem exists_next_of_jump_setMem {i : Instr} {s : State} {target : Word} {m : Memory}
    (h : exec i s = jump target (s.setMem m)) :
    ∃ t, exec i s = .next t ∧ t.mem = m ∧ t.pc = target ∧ t.run = s.run ∧ keepsRegs s t ∧ t.console = s.console :=
  ⟨_, h, rfl, rfl, rfl, fun _ => rfl, rfl⟩

/-! ### The statements -/

/-- Settles O22: with a zero id no request is issued and the memory stays; REPLACE0 is accepted just for an active id,
and its answer is the copy in segment 0. -/
theorem loadprogReplacesTheProgramAndJumps : Obligations.LoadprogReplacesTheProgramAndJumps := by
  intro b c s
  refine ⟨encodedBC_loadprog b c, fun hzero => ?_, fun hne hactive => ?_, fun hne hinactive => ?_⟩
  · obtain ⟨t, ht, hmem, hpc, hrun, hregs, hconsole⟩ :=
      exists_next_of_jump_setMem (m := s.mem) (exec_loadprog_jump (c := c) hzero)
    exact ⟨t, ht, hpc, hrun, hregs, ⟨hmem, fun _ _ => by rw [hmem]⟩, hconsole⟩
  · obtain ⟨m, e⟩ : ∃ m, mgrReplace0 s.mem (s.reg b) = some m :=
      Option.ne_none_iff_exists'.1 fun h => hactive (mgrReplace0_eq_none.1 h)
    obtain ⟨t, ht, rfl, hpc, hrun, hregs, hconsole⟩ := exists_next_of_jump_setMem (exec_loadprog_copy (c := c) hne e)
    have hother : keepsOtherSegments 0 s t := fun j hj =>
      have hsame : segmentAt t.mem j = segmentAt s.mem j := segmentAt_mgrReplace0_of_ne e hj
      ⟨hsame, mgrRead_of_segmentAt hsame⟩
    exact ⟨t, ht, hpc, segmentAt_mgrReplace0_zero e, mgrRead_mgrReplace0_zero e, hother, mgrReplace0_free e,
      mgrReplace0_noStorage e, hregs, hrun, hconsole⟩
  · exact stopsWith_of_raiseFatal (exec_loadprog_fault hne (mgrReplace0_eq_none.2 hinactive))

/-- Settles O21: HALT sets `run` alone, and the status word of a halted run is 1. -/
theorem haltStopsSuccessfully : Obligations.HaltStopsSuccessfully := by
  have hstatus : statusWord .halted = 1 := by decide
  exact ⟨encodedPlain_halt, fun s =>
    ⟨s.setRun .halted, exec_halt s, rfl, hstatus, rfl, fun _ => rfl, ⟨rfl, fun _ _ => rfl⟩, rfl⟩⟩

/-- Settles O23: both rows raise the cause in every state. -/
theorem invalidOpcodesStop : Obligations.InvalidOpcodesStop :=
  ⟨encodedPlain_invalid14, encodedPlain_invalid15, fun s =>
    ⟨stopsWith_of_raiseFatal (exec_invalid14 s), stopsWith_of_raiseFatal (exec_invalid15 s)⟩⟩

end Sys2Proof.Machine
end

/-! SUPPORT. The statements of 60_exceptions.md: a step that stops changes `run` alone (R195), and the exit status of
each final run state (R204). -/

section
namespace Sys2Proof.Machine

open Sys2Proof.Claims

/-! ### A stop is precise (R195) -/

/-- Of a running instruction's ends only the stop leaves STOPPED: HALT leaves HALTED, every other end keeps `run`. -/
theorem Ends.eq_setRun_of_stopped {i : Instr} {s t : State} {cause : Cause} (h : Ends i s t) (hr : s.run = .running)
    (ht : t.run = .stopped cause) : t = s.setRun (.stopped cause) := by
  cases h with
  | stop cause' =>
    have hcause : cause' = cause := RunState.stopped.inj ht
    rw [hcause]
  | halt => simp at ht
  | wait => simp [hr] at ht
  | complete u _ _ hu => simp [hu, hr] at ht
  | jump _ _ u _ hu => simp [hu, hr] at ht

/-- A running step stops at the fetch or in the instruction fetched, and either way sets `run` alone. -/
theorem step_eq_setRun_of_stopped {s t : State} {cause : Cause} (hr : s.run = .running) (h : step s = .next t)
    (ht : t.run = .stopped cause) : t = s.setRun (.stopped cause) := by
  cases hf : fetch s with
  | none =>
    rw [step_running_outOfBounds hr hf, raiseFatal_eq] at h
    cases h
    have hcause : .fetchOob = cause := RunState.stopped.inj ht
    rw [hcause]
  | some w =>
    rw [step_running_fetched hr hf] at h
    exact (ends_of_exec h).eq_setRun_of_stopped hr ht

/-- Settles O27: the state after the stop is the state before with `run` set, so every other field is as it was. -/
theorem stopsArePrecise : Obligations.StopsArePrecise := by
  intro s t cause hr h ht
  obtain rfl := step_eq_setRun_of_stopped hr h ht
  exact ⟨stoppedFrom_setRun cause s, rfl⟩

/-! ### The exit status (R204) -/

theorem exitFatal_ne_zero : Config.exitFatal ≠ 0 := Nat.succ_ne_zero _

/-- Every cause but FETCH_OOB shares the one fatal status. -/
theorem exitStatus_stopped_of_ne_fetchOob {cause : Cause} (h : cause ≠ .fetchOob) :
    exitStatus (.stopped cause) = some Config.exitFatal := by
  cases cause with
  | fetchOob => exact absurd rfl h
  | memFault | invalidOpcode | divZero | consoleRange => rfl

/-- Settles O48: the shared number of the four other causes is `EXIT_FATAL`, open but not 0. -/
theorem exitStatusOfAFinishedRun : Obligations.ExitStatusOfAFinishedRun :=
  ⟨rfl, rfl, rfl, Config.exitFatal, exitFatal_ne_zero, fun _ => exitStatus_stopped_of_ne_fetchOob⟩

end Sys2Proof.Machine
end

/-! SUPPORT. The statements of 70_reset_and_hazards.md about reset (R230, R231): a reset over a re-initialised
environment is `boot` of the program, whatever the state was, and `boot` leaves the values of 10_state.md R33. -/

section
namespace Sys2Proof.Machine

/-! ### When a reset is accepted -/

theorem progWellFormed_iff {prog : List Word} : progWellFormed prog = true ↔ prog.length < 2 ^ 32 :=
  decide_eq_true_iff

/-- U13: over a used address space the core alone is not reset. -/
theorem hostReset_coreAlone (s : State) : hostReset s none = .refused .coreResetAlone := rfl

/-- R231: no branch of the reset looks at the state before. -/
theorem hostReset_eq_from_any_state (s s' : State) (environment : Option Boot) :
    hostReset s environment = hostReset s' environment := rfl

/-- An accepted reset is one `boot` from every state. -/
theorem hostReset_of_progWellFormed (s : State) {b : Boot} (h : progWellFormed b.prog = true) :
    hostReset s (some b) = .next (boot b) :=
  if_pos h

/-! ### The machine after it (R33) -/

section Boot
variable (b : Boot)

@[simp] theorem boot_pc : (boot b).pc = 0 := rfl
@[simp] theorem boot_run : (boot b).run = .running := rfl
@[simp] theorem boot_mem : (boot b).mem = mgrInit b.prog := rfl
@[simp] theorem boot_output : (boot b).console.output = [] := rfl
@[simp] theorem boot_input : (boot b).console.input = b.input := rfl
@[simp] theorem boot_inputEnded : (boot b).console.inputEnded = b.inputEnded := rfl

@[simp] theorem boot_reg (r : RegIdx) : (boot b).reg r = 0 := Vector.getElem_replicate r.isLt

end Boot

/-- The first fetch reads word 0 of the initial segment 0, or faults where the program has none. -/
theorem fetch_boot {b : Boot} (h : progWellFormed b.prog = true) : fetch (boot b) = b.prog[0]? :=
  mgrRead_mgrInit (progWellFormed_iff.1 h) 0

theorem statusWord_running : statusWord .running = 0 := by decide

/-! ### The statements -/

/-- Settles O45: the accepted reset answers `boot` of the program, and the first fetch reads what `init` installed. -/
theorem resetLeavesTheStatedValues : Obligations.ResetLeavesTheStatedValues := fun s b hfits =>
  ⟨boot b, hostReset_of_progWellFormed s hfits, boot_reg b, boot_pc b, boot_run b, statusWord_running, fetch_boot hfits⟩

/-- Settles O46: every state gives the same reset, and the accepted one boots over a fresh memory and console. -/
theorem resetNeedsAFreshEnvironment : Obligations.ResetNeedsAFreshEnvironment := by
  intro s s'
  refine ⟨hostReset_coreAlone s, fun b => ⟨hostReset_eq_from_any_state s s' (some b), fun hfits => ?_⟩⟩
  have haccepted : hostReset s (some b) = .next (boot b) := hostReset_of_progWellFormed s (progWellFormed_iff.2 hfits)
  exact ⟨boot b, haccepted, boot_mem b, boot_output b, boot_input b, boot_inputEnded b⟩

end Sys2Proof.Machine
end

/-! SUPPORT. Decoding and encoding against each other (30_encoding.md R99, R101, R106). An instruction's canonical word
decodes to it, and the canonical word of what a word decodes to is that word with its unused bits 0; the statements
follow from these two. -/

section
namespace Sys2Proof.Machine

open Sys2Proof.Claims

/-! ### The canonical word of an instruction, and back -/

theorem encodedBC_map (b c : RegIdx) : encodedBC 8 b c (.map b c) :=
  encodedBC_of_arms (by decide) (fun _ _ => rfl) (fun w h => by simp [decode, h]) b c

theorem encodedC_inp (c : RegIdx) : encodedC 11 c (.inp c) :=
  encodedC_of_arms (by decide) (fun _ => rfl) (fun w h => by simp [decode, h]) c

section RoundTrip
variable {op : Nat} {a b c : RegIdx} {imm : Imm} {i : Instr}

theorem roundTrip_of_encodedABC (h : encodedABC op a b c i) :
    (encode i).toNat = op * 2 ^ 28 + a.val * 64 + b.val * 8 + c.val ∧ decode (encode i) = i := by
  obtain ⟨henc, hdec⟩ := h
  have := a.isLt; have := b.isLt; have := c.isLt
  exact ⟨henc, by apply hdec <;> omega⟩

theorem roundTrip_of_encodedBC (h : encodedBC op b c i) :
    (encode i).toNat = op * 2 ^ 28 + b.val * 8 + c.val ∧ decode (encode i) = i := by
  obtain ⟨henc, hdec⟩ := h
  have := b.isLt; have := c.isLt
  exact ⟨henc, by apply hdec <;> omega⟩

theorem roundTrip_of_encodedC (h : encodedC op c i) :
    (encode i).toNat = op * 2 ^ 28 + c.val ∧ decode (encode i) = i := by
  obtain ⟨henc, hdec⟩ := h
  have := c.isLt
  exact ⟨henc, by apply hdec <;> omega⟩

theorem roundTrip_of_encodedPlain (h : encodedPlain op i) :
    (encode i).toNat = op * 2 ^ 28 ∧ decode (encode i) = i := by
  obtain ⟨henc, hdec⟩ := h
  exact ⟨henc, hdec _ (by omega)⟩

theorem roundTrip_of_encodedLI (h : encodedLI op a imm i) :
    (encode i).toNat = op * 2 ^ 28 + a.val * 2 ^ 25 + imm.toNat ∧ decode (encode i) = i := by
  obtain ⟨henc, hdec⟩ := h
  have := a.isLt; have := imm.isLt
  exact ⟨henc, by apply hdec <;> omega⟩

end RoundTrip

/-- Every row is printed as its canonical word, and that word decodes to the row. -/
theorem encode_roundTrip (i : Instr) : (encode i).toNat = canonicalWord i ∧ decode (encode i) = i := by
  cases i with
  | cmov a b c => exact roundTrip_of_encodedABC (encodedABC_cmov a b c)
  | sload a b c => exact roundTrip_of_encodedABC (encodedABC_sload a b c)
  | sstore a b c => exact roundTrip_of_encodedABC (encodedABC_sstore a b c)
  | add a b c => exact roundTrip_of_encodedABC (encodedABC_add a b c)
  | mul a b c => exact roundTrip_of_encodedABC (encodedABC_mul a b c)
  | div a b c => exact roundTrip_of_encodedABC (encodedABC_div a b c)
  | nand a b c => exact roundTrip_of_encodedABC (encodedABC_nand a b c)
  | halt => exact roundTrip_of_encodedPlain encodedPlain_halt
  | map b c => exact roundTrip_of_encodedBC (encodedBC_map b c)
  | unmap c => exact roundTrip_of_encodedC (encodedC_unmap c)
  | out c => exact roundTrip_of_encodedC (encodedC_out c)
  | inp c => exact roundTrip_of_encodedC (encodedC_inp c)
  | loadprog b c => exact roundTrip_of_encodedBC (encodedBC_loadprog b c)
  | loadimm a imm => exact roundTrip_of_encodedLI (encodedLI_loadimm a imm)
  | invalid14 => exact roundTrip_of_encodedPlain encodedPlain_invalid14
  | invalid15 => exact roundTrip_of_encodedPlain encodedPlain_invalid15

theorem toNat_encode (i : Instr) : (encode i).toNat = canonicalWord i := (encode_roundTrip i).1

@[simp] theorem decode_encode (i : Instr) : decode (encode i) = i := (encode_roundTrip i).2

theorem encode_injective : Function.Injective encode := Function.LeftInverse.injective decode_encode

/-! ### A word with its unused bits 0 (R99) -/

/-- How many low bits of a word an opcode's instruction uses. -/
def operandBits (op : Nat) : Nat :=
  if op ≤ 6 then 9 else if op = 7 then 0 else if op = 8 then 6 else if op ≤ 11 then 3 else if op = 12 then 6
  else if op = 13 then 28 else 0

theorem operandBits_le (op : Nat) : operandBits op ≤ 28 := by
  unfold operandBits
  split_ifs <;> decide

theorem usedBits_eq (op : Nat) : usedBits op = (0xF0000000 : Word) ||| BitVec.ofNat 32 (2 ^ operandBits op - 1) := by
  unfold usedBits operandBits
  split_ifs <;> rfl

theorem toNat_and_usedBits (w : Word) (op : Nat) :
    (w &&& usedBits op).toNat = w.toNat / 2 ^ 28 * 2 ^ 28 + w.toNat % 2 ^ operandBits op := by
  rw [usedBits_eq, toNat_and_opcodeAndLowBits w (operandBits_le op)]

/-- The used bits hold the opcode. -/
theorem opcode_and_usedBits (w : Word) (op : Nat) : (w &&& usedBits op).toNat / 2 ^ 28 = w.toNat / 2 ^ 28 := by
  have hlow : w.toNat % 2 ^ operandBits op < 2 ^ 28 :=
    (Nat.mod_lt _ (Nat.two_pow_pos _)).trans_le (Nat.pow_le_pow_right (by decide) (operandBits_le op))
  rw [toNat_and_usedBits]
  omega

/-- Row by row, the operands printed again are the low bits of the word. -/
theorem canonicalWord_decode (w : Word) :
    canonicalWord (decode w) = w.toNat / 2 ^ 28 * 2 ^ 28 + w.toNat % 2 ^ operandBits (w.toNat / 2 ^ 28) := by
  have hlt : w.toNat / 2 ^ 28 < 16 := by have := w.isLt; omega
  unfold decode
  rw [field_opcode]
  interval_cases w.toNat / 2 ^ 28 <;>
    simp [canonicalWord, operandBits, fieldA, fieldB, fieldC, fieldALI, fieldImm, regField, field] <;> omega

/-- Decoding and encoding again sets the unused bits to 0. -/
theorem encode_decode (w : Word) : encode (decode w) = w &&& usedBits (w.toNat / 2 ^ 28) := by
  apply BitVec.eq_of_toNat_eq
  rw [toNat_encode, canonicalWord_decode, toNat_and_usedBits]

theorem decode_and_usedBits (w : Word) : decode (w &&& usedBits (w.toNat / 2 ^ 28)) = decode w := by
  rw [← encode_decode, decode_encode]

/-- Every opcode but 13 uses bits 31:28 and 8:0 at most. -/
theorem and_usedBits_of_ne {op : Nat} (h : op ≠ 13) : (0xF00001FF : Word) &&& usedBits op = usedBits op := by
  unfold usedBits
  split_ifs <;> rfl

/-! ### The statements -/

/-- Settles O1: a word with the used bits of `encode i` has its opcode, so its own canonical word is `encode i`. -/
theorem decodeOfEncodeIsTheInstruction : Obligations.DecodeOfEncodeIsTheInstruction := by
  intro i
  refine ⟨toNat_encode i, decode_encode i, fun w hw => encode_injective ?_⟩
  have hop : w.toNat / 2 ^ 28 = i.opcode := by
    rw [← opcode_and_usedBits w i.opcode, hw, ← field_opcode, field_encode_opcode]
  rw [encode_decode, hop, hw]

/-- Settles O2: words decode alike just when their canonical words, the used bits, are the same. -/
theorem wordsDecodeAlikeIffUsedBitsAgree : Obligations.WordsDecodeAlikeIffUsedBitsAgree := by
  intro v w
  constructor
  · intro h
    have hop : v.toNat / 2 ^ 28 = w.toNat / 2 ^ 28 := by
      rw [← field_opcode, ← field_opcode, ← opcode_decode, ← opcode_decode, h]
    refine ⟨hop, ?_⟩
    calc v &&& usedBits (v.toNat / 2 ^ 28)
        = encode (decode v) := (encode_decode v).symm
      _ = encode (decode w) := by rw [h]
      _ = w &&& usedBits (v.toNat / 2 ^ 28) := by rw [encode_decode, hop]
  · rintro ⟨hop, hbits⟩
    rw [← decode_and_usedBits v, hbits, hop, decode_and_usedBits]

/-- Settles O3: the canonical word decodes alike, and outside opcode 13 it does not see bits 27:9. -/
theorem ignoredBitsDoNotChangeTheDecoding : Obligations.IgnoredBitsDoNotChangeTheDecoding := by
  intro w
  refine ⟨fun hne => ?_, (decode_and_usedBits w).symm⟩
  have hop : (w &&& (0xF00001FF : Word)).toNat / 2 ^ 28 = w.toNat / 2 ^ 28 := opcode_and_usedBits w 0
  rw [← decode_and_usedBits w, ← decode_and_usedBits (w &&& 0xF00001FF), hop, BitVec.and_assoc,
    and_usedBits_of_ne hne]

/-- Settles O5: shifting right by `lsb` divides by `2 ^ lsb`, and the slice is the remainder. -/
theorem fieldIsTheBitSlice : Obligations.FieldIsTheBitSlice := by
  intro v w lsb _
  refine ⟨?_, field_lt v w lsb, Nat.mod_one _⟩
  rw [BitVec.extractLsb'_toNat, Nat.shiftRight_eq_div_pow, field]

/-- Settles O6: the eleven words are decoded. -/
theorem writtenOutWordsDecode : Obligations.WrittenOutWordsDecode := by
  unfold Obligations.WrittenOutWordsDecode
  decide

end Sys2Proof.Machine
end

/-! SUPPORT. What every instruction and every step do alike: how a result is built up from the shared operations, the
two ends of a running step, and what a run of steps keeps. -/

section
namespace Sys2Proof.Machine

/-! ### The result of an instruction, along the operations it is built from -/

/-- The result is a next state of which `Q` holds. -/
def Answers (Q : State → Prop) (r : Result) : Prop := ∃ t, r = .next t ∧ Q t

namespace Answers
variable {Q : State → Prop} {s : State}

theorem next (h : Q s) : Answers Q (.next s) := ⟨s, rfl, h⟩

theorem raiseFatal {cause : Cause} (h : Q (s.setRun (.stopped cause))) : Answers Q (raiseFatal cause s) := next h

theorem stopHalted (h : Q (s.setRun .halted)) : Answers Q (stopHalted s) := next h

theorem complete (h : Q (s.setPc (s.pc + 1))) : Answers Q (complete s) := next h

theorem jump {target : Word} (h : Q (s.setPc target)) : Answers Q (jump target s) := next h

theorem onAnswer {α : Type} {answer : Option α} {k : α → Result}
    (hfault : answer = none → Q (s.setRun (.stopped .memFault))) (hok : ∀ v, answer = some v → Answers Q (k v)) :
    Answers Q (onAnswer answer s k) := by
  cases answer with
  | none => exact raiseFatal (hfault rfl)
  | some v => exact hok v rfl

theorem ite {p : Prop} [Decidable p] {r r' : Result} (h : p → Answers Q r) (h' : ¬p → Answers Q r') :
    Answers Q (if p then r else r') := by
  split
  · next hp => exact h hp
  · next hp => exact h' hp

/-- CMOV by its two branches. -/
theorem cmov {a b c : RegIdx} (hskip : Q (s.setPc (s.pc + 1))) (hmove : Q ((s.setReg a (s.reg b)).setPc (s.pc + 1))) :
    Answers Q (exec (.cmov a b c) s) := by
  by_cases hc : s.reg c = 0
  · rw [exec_cmov_skip hc]
    exact complete hskip
  · rw [exec_cmov_move hc]
    exact complete hmove

/-- IN by the input port's three answers. -/
theorem inp {c : RegIdx} (hwait : Q s) (heos : Q ((s.setReg c Config.eosWord).setPc (s.pc + 1)))
    (hbyte : ∀ byte rest, s.console.input = byte :: rest →
      Q (((s.setConsole { s.console with input := rest }).setReg c (byteValue byte)).setPc (s.pc + 1))) :
    Answers Q (exec (.inp c) s) := by
  cases hin : s.console.input with
  | cons byte rest =>
    rw [exec_inp_byte hin]
    exact complete (hbyte byte rest hin)
  | nil =>
    cases hend : s.console.inputEnded with
    | true =>
      rw [exec_inp_eos hin hend]
      exact complete heos
    | false =>
      rw [exec_inp_wait hin hend]
      exact next hwait

/-- `Q` holds of the state that the result is known to be. -/
theorem of_eq {r : Result} {t : State} (h : Answers Q r) (hr : r = .next t) : Q t := by
  obtain ⟨u, hu, hQ⟩ := h
  rw [hr] at hu
  cases hu
  exact hQ

end Answers

/-! ### One step -/

/-- A running step stops at the fetch or is the fetched instruction. -/
theorem step_running_cases {s t : State} (hr : s.run = .running) (h : step s = .next t) :
    (fetch s = none ∧ t = s.setRun (.stopped .fetchOob)) ∨ ∃ w, fetch s = some w ∧ exec (decode w) s = .next t := by
  cases hf : fetch s with
  | none =>
    rw [step_running_outOfBounds hr hf, raiseFatal_eq] at h
    cases h
    exact .inl ⟨rfl, rfl⟩
  | some w => exact .inr ⟨w, rfl, by rw [← step_running_fetched hr hf, h]⟩

theorem step_answers (s : State) : ∃ t, step s = .next t := by
  by_cases hr : s.run = .running
  · cases hf : fetch s with
    | none => exact ⟨_, step_running_outOfBounds hr hf⟩
    | some w =>
      obtain ⟨t, ht, -⟩ := exec_ends (decode w) s
      exact ⟨t, by rw [step_running_fetched hr hf, ht]⟩
  · exact ⟨s, step_ended hr⟩

/-- What every instruction keeps, and the stop at the fetch, every step keeps. -/
theorem step_keeps {P : State → Prop} (hstop : ∀ s, P s → P (s.setRun (.stopped .fetchOob)))
    (hexec : ∀ i s t, P s → exec i s = .next t → P t) {s t : State} (hs : P s) (h : step s = .next t) : P t := by
  by_cases hr : s.run = .running
  · obtain ⟨-, rfl⟩ | ⟨w, -, ht⟩ := step_running_cases hr h
    · exact hstop s hs
    · exact hexec (decode w) s t hs ht
  · rw [step_ended hr] at h
    cases h
    exact hs

/-! ### Any number of steps -/

theorem run_answers (k : Nat) (s : State) : ∃ t, core.run k s = .next t := by
  induction k generalizing s with
  | zero => exact ⟨s, rfl⟩
  | succ k ih =>
    obtain ⟨u, hu⟩ := step_answers s
    rw [run_succ hu]
    exact ih u

/-- What every step keeps, every run of steps keeps. -/
theorem run_keeps {P : State → Prop} (hstep : ∀ s t, P s → step s = .next t → P t) {k : Nat} {s t : State}
    (hs : P s) (h : core.run k s = .next t) : P t := by
  induction k generalizing s with
  | zero =>
    cases h
    exact hs
  | succ k ih =>
    obtain ⟨u, hu⟩ := step_answers s
    rw [run_succ hu] at h
    exact ih (hstep s u hs hu) h

/-- A run that has ended stays where it is (60_exceptions.md R198). -/
theorem run_ended {s : State} (hr : s.run ≠ .running) (k : Nat) : core.run k s = .next s := by
  induction k with
  | zero => rfl
  | succ k ih => rw [run_succ (step_ended hr), ih]

/-- `pc` at each of a running instruction's ends (10_state.md R25). -/
theorem Ends.pc {i : Instr} {s t : State} (h : Ends i s t) (hr : s.run = .running) :
    (t.run ≠ .running → t.pc = s.pc) ∧
    (t.run = .running →
      (∃ b c, i = .loadprog b c ∧ t.pc = s.reg c) ∨
      ((∀ b c, i ≠ .loadprog b c) ∧ i ≠ .halt ∧ t.pc = s.pc + 1) ∨
      (∃ c, (i = .out c ∨ i = .inp c) ∧ t = s)) := by
  cases h with
  | stop cause => exact ⟨fun _ => rfl, fun hrun => by simp at hrun⟩
  | halt hi => exact ⟨fun _ => rfl, fun hrun => by simp at hrun⟩
  | wait c hi => exact ⟨fun _ => rfl, fun _ => .inr (.inr ⟨c, hi, rfl⟩)⟩
  | complete u hi hh hu hp =>
    exact ⟨fun hrun => absurd (hu.trans hr) hrun, fun _ => .inr (.inl ⟨hi, hh, by simp [hp]⟩)⟩
  | jump b c u hi hu => exact ⟨fun hrun => absurd (hu.trans hr) hrun, fun _ => .inl ⟨b, c, hi, rfl⟩⟩

/-! ### The statements -/

/-- Settles O32: every step answers, so every run does. -/
theorem everyRunOfStepsGoesOn : Obligations.EveryRunOfStepsGoesOn := run_answers

/-- Settles O26: the ended step is the identity, and an accepted reset boots. -/
theorem endedRunsStayAsTheyAre : Obligations.EndedRunsStayAsTheyAre := fun s hr =>
  ⟨run_ended hr, fun b hfits => ⟨boot b, hostReset_of_progWellFormed s hfits, boot_run b⟩⟩

/-- Settles O24: the fetch reads the word that is then dispatched. -/
theorem stepRunsTheDecodedInstruction : Obligations.StepRunsTheDecodedInstruction := fun _ _ hr hf =>
  step_running_fetched hr hf

/-- Settles O30: the fetched offset lies below a length, and lengths have 32 bits. -/
theorem pcIncrementNeverWraps : Obligations.PcIncrementNeverWraps := by
  intro s w hf
  obtain ⟨g, -, hlt, -⟩ := mgrRead_eq_some.1 hf
  have hlen := g.len.isLt
  exact BitVec.toNat_add_of_lt (show s.pc.toNat + 1 < 2 ^ 32 by omega)

/-- Settles O29: at the fetch or as the instruction ends. -/
theorem pcAfterEachStep : Obligations.PcAfterEachStep := by
  intro s t hr h
  obtain ⟨-, rfl⟩ | ⟨w, hf, hexec⟩ := step_running_cases hr h
  · exact ⟨fun _ => rfl, fun hrun => by simp at hrun⟩
  · obtain ⟨hended, hrunning⟩ := (ends_of_exec hexec).pc hr
    exact ⟨hended, fun hrun => ⟨w, hf, hrunning hrun⟩⟩

/-- Settles O31: of an instruction's ends HALT's alone leaves HALTED. -/
theorem onlyHaltEndsARunWithSuccess : Obligations.OnlyHaltEndsARunWithSuccess := by
  intro s t hr h
  constructor
  · intro ht
    obtain ⟨-, rfl⟩ | ⟨w, hf, hexec⟩ := step_running_cases hr h
    · simp at ht
    · refine ⟨w, hf, ?_⟩
      cases ends_of_exec hexec with
      | stop cause => simp at ht
      | halt hi => exact hi
      | wait c hi => simp [hr] at ht
      | complete u _ _ hu => simp [hu, hr] at ht
      | jump b c u _ hu => simp [hu, hr] at ht
  · rintro ⟨w, hf, hw⟩
    rw [step_running_fetched hr hf, hw, exec_halt] at h
    cases h
    rfl

end Sys2Proof.Machine
end

/-! SUPPORT. The one memory request of an instruction (20_memory.md R54) and what the answer to it decides: the memory
left, MEM_FAULT, the lengths of the segments. -/

section
namespace Sys2Proof.Machine

open Sys2Proof.Claims

/-! ### The request decides the memory -/

/-- The next states that the answer to an instruction's request allows. -/
inductive FollowsRequest (i : Instr) (s : State) : State → Prop where
  /-- No request is issued, and the memory stays. -/
  | noRequest {t : State} (hq : requestOf i s = none) (hm : t.mem = s.mem) : FollowsRequest i s t
  /-- The request faults, and that stops the instruction. -/
  | fault {q : MemRequest} (hq : requestOf i s = some q) (ha : answer s.mem q = none) :
      FollowsRequest i s (s.setRun (.stopped .memFault))
  /-- The request is answered, and the instruction leaves the answer's memory. -/
  | ok {t : State} {q : MemRequest} (hq : requestOf i s = some q) (ha : answer s.mem q = some t.mem)
      (hr : t.run = s.run) : FollowsRequest i s t

theorem exec_followsRequest (i : Instr) (s : State) : Answers (FollowsRequest i s) (exec i s) := by
  cases i with
  | cmov a b c => exact .cmov (.noRequest rfl rfl) (.noRequest rfl rfl)
  | sload a b c =>
    exact .onAnswer (fun e => .fault rfl (by simp [answer, e])) fun v e => .complete (.ok rfl (by simp [answer, e]) rfl)
  | sstore a b c => exact .onAnswer (fun e => .fault rfl e) fun m e => .complete (.ok rfl e rfl)
  | add a b c => exact .complete (.noRequest rfl rfl)
  | mul a b c => exact .complete (.noRequest rfl rfl)
  | div a b c => exact .ite (fun _ => .raiseFatal (.noRequest rfl rfl)) fun _ => .complete (.noRequest rfl rfl)
  | nand a b c => exact .complete (.noRequest rfl rfl)
  | halt => exact .stopHalted (.noRequest rfl rfl)
  | map b c =>
    exact .onAnswer (fun e => .fault rfl (by simp [answer, e])) fun p e => .complete (.ok rfl (by simp [answer, e]) rfl)
  | unmap c => exact .onAnswer (fun e => .fault rfl e) fun m e => .complete (.ok rfl e rfl)
  | out c =>
    exact .ite (fun _ => .raiseFatal (.noRequest rfl rfl)) fun _ =>
      .ite (fun _ => .complete (.noRequest rfl rfl)) fun _ => .next (.noRequest rfl rfl)
  | inp c => exact .inp (.noRequest rfl rfl) (.noRequest rfl rfl) fun _ _ _ => .noRequest rfl rfl
  | loadprog b c =>
    refine .ite (fun hz => .jump (.noRequest (if_pos hz) rfl)) fun hz => ?_
    have hq : requestOf (.loadprog b c) s = some (.replace0 (s.reg b)) := if_neg hz
    exact .onAnswer (fun e => .fault hq e) fun m e => .jump (.ok hq e rfl)
  | loadimm a imm => exact .complete (.noRequest rfl rfl)
  | invalid14 => exact .raiseFatal (.noRequest rfl rfl)
  | invalid15 => exact .raiseFatal (.noRequest rfl rfl)

theorem followsRequest_of_exec {i : Instr} {s t : State} (h : exec i s = .next t) : FollowsRequest i s t :=
  (exec_followsRequest i s).of_eq h

/-- Settles O34: case by case of the request and its answer. -/
theorem memoryChangesOnlyByTheListedRequest : Obligations.MemoryChangesOnlyByTheListedRequest := by
  intro i s t h
  cases followsRequest_of_exec h with
  | noRequest hq hm => exact ⟨fun _ => hm, by simp [hq], by simp [hq]⟩
  | @fault q hq ha =>
    refine ⟨by simp [hq], fun _ _ _ => stoppedFrom_setRun .memFault s, fun q' m hq' ha' => ?_⟩
    obtain rfl : q = q' := Option.some.inj (hq.symm.trans hq')
    simp [ha] at ha'
  | @ok _ q hq ha hr =>
    refine ⟨by simp [hq], by simp [hq, ha], fun q' m hq' ha' => ?_⟩
    obtain rfl : q = q' := Option.some.inj (hq.symm.trans hq')
    exact ⟨Option.some.inj (ha.symm.trans ha'), hr⟩

/-! ### What every step keeps of the memory -/

theorem exec_keeps_inv {i : Instr} {s t : State} (hinv : Safety.Inv s) (h : exec i s = .next t) : Safety.Inv t := by
  obtain hsame | ⟨q, ha⟩ := exec_mem h
  · rwa [Safety.Inv, hsame]
  · exact wf_answer q hinv ha

/-- Settles O38: a stop at the fetch leaves the memory, and an instruction leaves it as it was or as an answered request
leaves it, which keeps the invariant. -/
theorem stepKeepsTheAddressSpaceInvariant : Obligations.StepKeepsTheAddressSpaceInvariant := fun _ _ =>
  step_keeps (fun _ hinv => hinv) fun _ _ _ => exec_keeps_inv

/-- Settles O39: reset holds the empty program, a boot the given one. -/
theorem resetMeetsTheAddressSpaceInvariant : Obligations.ResetMeetsTheAddressSpaceInvariant :=
  ⟨wf_reset, fun _ hfits => wf_mgrInit (of_decide_eq_true hfits)⟩

theorem len_eq_of_segmentAt_eq {m m' : Memory} {id : Word} {g g' : Segment} (h : segmentAt m' id = segmentAt m id)
    (hg : segmentAt m id = some g) (hg' : segmentAt m' id = some g') : g'.len = g.len := by
  rw [h, hg] at hg'
  cases hg'
  rfl

/-- An answered request leaves the length of a segment that stays active, but for the copy into segment 0. -/
theorem answer_keeps_len {m m' : Memory} {q : MemRequest} {id : Word} {g g' : Segment} (hwf : m.wf)
    (ha : answer m q = some m') (hg : segmentAt m id = some g) (hg' : segmentAt m' id = some g')
    (hid : id ≠ 0 ∨ ∀ j, q ≠ .replace0 j) : g'.len = g.len := by
  cases q with
  | read j off =>
    obtain ⟨_, _, rfl⟩ := Option.map_eq_some_iff.1 ha
    exact len_eq_of_segmentAt_eq rfl hg hg'
  | write j off v => simpa [hg, hg'] using segmentAt_len_mgrWrite ha id
  | alloc len =>
    obtain ⟨p, hp, rfl⟩ := Option.map_eq_some_iff.1 ha
    obtain ⟨-, -, hfresh, hseg, -, -⟩ := segmentAt_mgrAlloc hwf hp
    have hne : id ≠ p.1 := by
      rintro rfl
      simp [hfresh] at hg
    exact len_eq_of_segmentAt_eq (by rw [hseg, if_neg hne]) hg hg'
  | free j =>
    have hne : id ≠ j := by
      rintro rfl
      simp [segmentAt_mgrFree_same ha] at hg'
    exact len_eq_of_segmentAt_eq (by rw [segmentAt_mgrFree ha, if_neg hne]) hg hg'
  | replace0 j =>
    have hne : id ≠ 0 := hid.resolve_right fun h => h j rfl
    exact len_eq_of_segmentAt_eq (segmentAt_mgrReplace0_of_ne ha hne) hg hg'

/-- LOADPROG alone asks for REPLACE0. -/
theorem eq_loadprog_of_replace0 {i : Instr} {s : State} {j : Word} (h : requestOf i s = some (.replace0 j)) :
    ∃ b c, i = .loadprog b c := by
  cases i <;> simp [requestOf] at h ⊢

/-- Settles O35: an instruction's request keeps the lengths, and only LOADPROG's is REPLACE0. -/
theorem segmentLengthsNeverChange : Obligations.SegmentLengthsNeverChange := by
  intro s t id g g' hr h hg hg' hid hwf
  obtain ⟨-, rfl⟩ | ⟨w, hf, hexec⟩ := step_running_cases hr h
  · exact len_eq_of_segmentAt_eq rfl hg hg'
  · cases followsRequest_of_exec hexec with
    | noRequest _ hm => exact len_eq_of_segmentAt_eq (by rw [hm]) hg hg'
    | fault => exact len_eq_of_segmentAt_eq rfl hg hg'
    | @ok _ q hq ha _ =>
      refine answer_keeps_len hwf ha hg hg' (hid.imp_right fun hne j hj => ?_)
      obtain ⟨b, c, hi⟩ := eq_loadprog_of_replace0 (hj ▸ hq)
      exact hne w b c hf hi

end Sys2Proof.Machine
end

/-! SUPPORT. The cause an instruction stops with and when (60_exceptions.md R191 to R193, R199). -/

section
namespace Sys2Proof.Machine

open Sys2Proof.Claims

/-! ### Each instruction has one cause to stop with -/

/-- The one cause that can stop the instruction; where none can, its condition never holds. -/
def stopCause : Instr → Cause
  | .div _ _ _ => .divZero
  | .out _ => .consoleRange
  | .invalid14 => .invalidOpcode
  | .invalid15 => .invalidOpcode
  | _ => .memFault

/-- When that cause stops it. -/
def stopTest (i : Instr) (s : State) : Prop :=
  match i with
  | .div _ _ c => s.reg c = 0
  | .out c => 255 < (s.reg c).toNat
  | .invalid14 => True
  | .invalid15 => True
  | i => memFaultCondition i s

/-- Of the causes only `cause` can have stopped the run, and it has just if `p`. -/
def StopsOn (cause : Cause) (p : Prop) (t : State) : Prop := ∀ cause', t.run = .stopped cause' ↔ cause' = cause ∧ p

namespace StopsOn
variable {cause : Cause} {p : Prop} {s t : State}

theorem stop (hp : p) : StopsOn cause p (s.setRun (.stopped cause)) := fun cause' => by simp [hp, eq_comm]

theorem goesOn (hr : t.run = .running) (hp : ¬p) : StopsOn cause p t := fun cause' => by simp [hr, hp]

theorem halt (hp : ¬p) : StopsOn cause p (s.setRun .halted) := fun cause' => by simp [hp]

/-- The manager has answered, where `p` says that it does not. -/
theorem answered {α : Type} {answer : Option α} {v : α} (e : answer = some v) (hp : p ↔ answer = none)
    (hr : t.run = .running) : StopsOn cause p t :=
  goesOn hr (by simp [hp, e])

end StopsOn

theorem exec_stopsOn (i : Instr) {s : State} (hr : s.run = .running) :
    Answers (StopsOn (stopCause i) (stopTest i s)) (exec i s) := by
  cases i with
  | cmov a b c => exact .cmov (.goesOn hr id) (.goesOn hr id)
  | sload a b c =>
    exact .onAnswer (fun e => .stop (faultyAddress_iff_mgrRead.2 e))
      fun v e => .complete (.answered e faultyAddress_iff_mgrRead hr)
  | sstore a b c =>
    have hfaulty : faultyAddress s.mem (s.reg a) (s.reg b) ↔ mgrWrite s.mem (s.reg a) (s.reg b) (s.reg c) = none :=
      faultyAddress_iff_mgrRead.trans mgrWrite_eq_none.symm
    exact .onAnswer (fun e => .stop (hfaulty.2 e)) fun m e => .complete (.answered e hfaulty hr)
  | add a b c => exact .complete (.goesOn hr id)
  | mul a b c => exact .complete (.goesOn hr id)
  | div a b c =>
    exact .ite (fun hz => .raiseFatal (.stop ((isZero_iff _).1 hz))) fun hz =>
      .complete (.goesOn hr (mt (isZero_iff _).2 hz))
  | nand a b c => exact .complete (.goesOn hr id)
  | halt => exact .stopHalted (.halt id)
  | map b c => exact .onAnswer .stop fun p e => .complete (.answered e Iff.rfl hr)
  | unmap c =>
    exact .onAnswer (fun e => .stop (mgrFree_eq_none.1 e)) fun m e => .complete (.answered e mgrFree_eq_none.symm hr)
  | out c =>
    refine .ite (fun hrange => .raiseFatal (.stop ((outOfByteRange_iff _).1 hrange))) fun hrange => ?_
    have hbyte : ¬255 < (s.reg c).toNat := mt (outOfByteRange_iff _).2 hrange
    exact .ite (fun _ => .complete (.goesOn hr hbyte)) fun _ => .next (.goesOn hr hbyte)
  | inp c => exact .inp (.goesOn hr id) (.goesOn hr id) fun _ _ _ => .goesOn hr id
  | loadprog b c =>
    refine .ite (fun hz => .jump (.goesOn hr fun h => h.1 ((isZero_iff _).1 hz))) fun hz => ?_
    have hinactive : s.reg b ≠ 0 ∧ segmentAt s.mem (s.reg b) = none ↔ mgrReplace0 s.mem (s.reg b) = none := by
      rw [mgrReplace0_eq_none, and_iff_right (mt (isZero_iff _).2 hz)]
    exact .onAnswer (fun e => .stop (hinactive.2 e)) fun m e => .jump (.answered e hinactive hr)
  | loadimm a imm => exact .complete (.goesOn hr id)
  | invalid14 => exact .raiseFatal (.stop trivial)
  | invalid15 => exact .raiseFatal (.stop trivial)

/-! ### The conditions of the statement -/

theorem fetch_eq_none_iff {s : State} : fetch s = none ↔ stopCondition s .fetchOob := mgrRead_eq_none

theorem eq_fetchOob_of_fetch_eq_none {s : State} {cause : Cause} (hf : fetch s = none) (h : stopCondition s cause) :
    cause = .fetchOob := by
  cases cause <;> simp_all [stopCondition]

/-- Where a word is fetched, a condition is the one of its instruction. -/
theorem stopCondition_iff_of_fetch {s : State} {w : Word} (hf : fetch s = some w) (cause : Cause) :
    stopCondition s cause ↔ cause = stopCause (decode w) ∧ stopTest (decode w) s := by
  have hop : w.toNat / 2 ^ 28 = (decode w).opcode := by rw [opcode_decode, field_opcode]
  cases cause with
  | fetchOob =>
    rw [← fetch_eq_none_iff, hf]
    cases decode w <;> simp [stopCause]
  | memFault =>
    simp only [stopCondition, hf, Option.some.injEq, exists_eq_left']
    cases decode w <;> simp [stopCause, stopTest, memFaultCondition]
  | invalidOpcode =>
    simp only [stopCondition, hf, Option.some.injEq, exists_eq_left', hop]
    cases decode w <;> simp [stopCause, stopTest, Instr.opcode]
  | divZero =>
    simp only [stopCondition, hf, Option.some.injEq]
    cases hi : decode w <;> simp [stopCause, stopTest, hi]
  | consoleRange =>
    simp only [stopCondition, hf, Option.some.injEq]
    cases hi : decode w <;> simp [stopCause, stopTest, hi]

/-- Settles O28: without a fetched word FETCH_OOB alone applies; with one, the cause of its instruction. -/
theorem stepStopsExactlyOnItsCondition : Obligations.StepStopsExactlyOnItsCondition := by
  intro s hr
  obtain ⟨t, h, hstop⟩ : ∃ t, step s = .next t ∧ ∀ cause, t.run = .stopped cause ↔ stopCondition s cause := by
    cases hf : fetch s with
    | none =>
      refine ⟨_, step_running_outOfBounds hr hf, fun cause => ⟨fun ht => ?_, fun hc => ?_⟩⟩
      · obtain rfl : .fetchOob = cause := RunState.stopped.inj ht
        exact fetch_eq_none_iff.1 hf
      · rw [eq_fetchOob_of_fetch_eq_none hf hc, setRun_run]
    | some w =>
      obtain ⟨t, ht, hstop⟩ := exec_stopsOn (decode w) hr
      refine ⟨t, by rw [step_running_fetched hr hf, ht], fun cause => ?_⟩
      rw [hstop cause, stopCondition_iff_of_fetch hf]
  refine ⟨t, h, hstop, fun cause cause' hc hc' => ?_⟩
  exact RunState.stopped.inj (((hstop cause).2 hc).symm.trans ((hstop cause').2 hc'))

end Sys2Proof.Machine
end

/-! SUPPORT. The statements of 42_console.md about IN, about waiting and about the two streams (R161 to R163): what an
instruction does to the console, and what an ended input stays. -/

section
namespace Sys2Proof.Machine

open Sys2Proof.Claims

theorem toNat_byteValue (b : Byte) : (byteValue b).toNat = b.toNat := Nat.mod_eq_of_lt (b.isLt.trans (by decide))

/-! ### IN (R161) -/

/-- No answer of the input port stops the run. -/
theorem exec_inp_keeps_run (c : RegIdx) (s : State) : Answers (fun t => t.run = s.run) (exec (.inp c) s) :=
  .inp rfl rfl fun _ _ _ => rfl

/-- Settles O19: one case for each answer of the port. -/
theorem inReadsAByteOrAllOnes : Obligations.InReadsAByteOrAllOnes := by
  intro c s
  refine ⟨encodedC_inp c, fun byte rest hin => ?_, fun hin hend => ?_, exec_inp_keeps_run c s⟩
  · exact ⟨_, exec_inp_byte hin, by simp [toNat_byteValue], rfl, fun _ hr => reg_setReg_other _ c _ hr, ⟨rfl, rfl⟩,
      rfl, fun _ _ => rfl⟩
  · exact exists_next_of_complete_setReg (exec_inp_eos hin hend)

/-! ### Waiting (R162, R244) -/

theorem inputArrives_eq {s : State} (h : s.console.inputEnded = false) (byte : Byte) :
    inputArrives byte s = s.setConsole { s.console with input := s.console.input ++ [byte] } := by
  simp [inputArrives, h]

/-- After the end of stream no byte arrives. -/
theorem inputArrives_ended {s : State} (h : s.console.inputEnded = true) (byte : Byte) : inputArrives byte s = s :=
  if_pos h

/-- Settles O20: a waiting step is the identity; the answered one completes. -/
theorem consoleWaitsUntilThePortAnswers : Obligations.ConsoleWaitsUntilThePortAnswers := by
  intro c s
  refine ⟨fun hrange hbusy => ?_, fun hin hopen => ⟨exec_inp_wait hin hopen, fun byte => ?_, ?_⟩⟩
  · have hemit := exec_out_emit (s := consumerReady true s) (c := c) hrange rfl
    exact ⟨exec_out_wait hrange hbusy, _, hemit, rfl, by simp [conOut, consumerReady]⟩
  · have harrived : (inputArrives byte s).console.input = [byte] := by simp [inputArrives_eq hopen, hin]
    have hpc : (inputArrives byte s).pc = s.pc := by simp [inputArrives_eq hopen]
    exact ⟨_, exec_inp_byte harrived, by simp [hpc], by simp [toNat_byteValue]⟩
  · have heos := exec_inp_eos (s := inputEnds s) (c := c) hin rfl
    obtain ⟨t, ht, hreg, -, ⟨hpc, -⟩, -⟩ := exists_next_of_complete_setReg heos
    exact ⟨t, ht, hpc, hreg⟩

/-! ### The streams -/

/-- What an instruction can do to the console. -/
inductive MovesBytes (i : Instr) (s t : State) : Prop where
  /-- Nothing. -/
  | keeps (h : t.console = s.console)
  /-- OUT emits its byte. -/
  | emits (c : RegIdx) (hi : i = .out c) (hrange : (s.reg c).toNat ≤ 255)
      (h : t.console = conOut s.console (lowByte (s.reg c)))
  /-- IN takes the first byte. -/
  | takes (c : RegIdx) (byte : Byte) (rest : List Byte) (hi : i = .inp c) (hin : s.console.input = byte :: rest)
      (h : t.console = { s.console with input := rest }) (hreg : t.reg c = byteValue byte)

theorem exec_movesBytes (i : Instr) (s : State) : Answers (MovesBytes i s) (exec i s) := by
  cases i with
  | cmov a b c => exact .cmov (.keeps rfl) (.keeps rfl)
  | sload a b c => exact .onAnswer (fun _ => .keeps rfl) fun _ _ => .complete (.keeps rfl)
  | sstore a b c => exact .onAnswer (fun _ => .keeps rfl) fun _ _ => .complete (.keeps rfl)
  | add a b c => exact .complete (.keeps rfl)
  | mul a b c => exact .complete (.keeps rfl)
  | div a b c => exact .ite (fun _ => .raiseFatal (.keeps rfl)) fun _ => .complete (.keeps rfl)
  | nand a b c => exact .complete (.keeps rfl)
  | halt => exact .stopHalted (.keeps rfl)
  | map b c => exact .onAnswer (fun _ => .keeps rfl) fun _ _ => .complete (.keeps rfl)
  | unmap c => exact .onAnswer (fun _ => .keeps rfl) fun _ _ => .complete (.keeps rfl)
  | out c =>
    refine .ite (fun _ => .raiseFatal (.keeps rfl)) fun hrange => ?_
    have hbyte : (s.reg c).toNat ≤ 255 := (outOfByteRange_eq_false _).1 (Bool.eq_false_of_not_eq_true hrange)
    exact .ite (fun _ => .complete (.emits c rfl hbyte rfl)) fun _ => .next (.keeps rfl)
  | inp c =>
    exact .inp (.keeps rfl) (.keeps rfl) fun byte rest hin => .takes c byte rest rfl hin rfl (reg_setReg_same _ _ _)
  | loadprog b c =>
    exact .ite (fun _ => .jump (.keeps rfl)) fun _ => .onAnswer (fun _ => .keeps rfl) fun _ _ => .jump (.keeps rfl)
  | loadimm a imm => exact .complete (.keeps rfl)
  | invalid14 => exact .raiseFatal (.keeps rfl)
  | invalid15 => exact .raiseFatal (.keeps rfl)

theorem movesBytes_of_exec {i : Instr} {s t : State} (h : exec i s = .next t) : MovesBytes i s t :=
  (exec_movesBytes i s).of_eq h

/-- Settles O36: OUT's low byte is its value, and every other stream stays. -/
theorem consoleStreamsAreInProgramOrder : Obligations.ConsoleStreamsAreInProgramOrder := by
  intro s t hr h
  obtain ⟨-, rfl⟩ | ⟨w, hf, hexec⟩ := step_running_cases hr h
  · exact ⟨.inl rfl, .inl rfl⟩
  · cases movesBytes_of_exec hexec with
    | keeps h => exact ⟨.inl (by rw [h]), .inl (by rw [h])⟩
    | emits c hi hrange h =>
      have hbyte : (s.reg c).toNat = (lowByte (s.reg c)).toNat := (toNat_lowByte_of_le hrange).symm
      exact ⟨.inr ⟨w, c, lowByte (s.reg c), hf, hi, hbyte, by rw [h]; rfl⟩, .inl (by rw [h]; rfl)⟩
    | takes c byte rest hi hin h hreg =>
      exact ⟨.inl (by rw [h]), .inr ⟨w, c, byte, hf, hi, by rw [h, hin], by rw [hreg, toNat_byteValue]⟩⟩

/-! ### End of stream (R163) -/

/-- All bytes of the input are delivered and no more will come. -/
def AtEndOfStream (s : State) : Prop := s.console.input = [] ∧ s.console.inputEnded = true

theorem exec_keeps_atEndOfStream {i : Instr} {s t : State} (hs : AtEndOfStream s) (h : exec i s = .next t) :
    AtEndOfStream t := by
  cases movesBytes_of_exec h with
  | keeps h => rwa [AtEndOfStream, h]
  | emits c hi hrange h => rwa [AtEndOfStream, h]
  | takes c byte rest hi hin => simp [hs.1] at hin

/-- Settles O37: no step leaves the end of stream, and there IN receives all ones. -/
theorem endOfStreamIsPermanent : Obligations.EndOfStreamIsPermanent := by
  intro k s t hin hend h
  obtain ⟨hin', hend'⟩ : AtEndOfStream t :=
    run_keeps (fun _ _ => step_keeps (fun _ hs => hs) fun _ _ _ => exec_keeps_atEndOfStream) ⟨hin, hend⟩ h
  refine ⟨hin', hend', inputArrives_ended hend', fun c => ?_⟩
  obtain ⟨u, hu, hreg, -⟩ := exists_next_of_complete_setReg (exec_inp_eos (c := c) hin' hend')
  exact ⟨u, hu, hreg⟩

end Sys2Proof.Machine
end

/-! SUPPORT. The statements about MAP and the ids it gives out (41_segment.md R142, 20_memory.md R58, R65). -/

section
namespace Sys2Proof.Machine

open Sys2Proof.Claims

/-- Settles O44: an id needs 32 bits, so 2^32 is the bound on the ids. -/
theorem allocFaultsOnlyForWantOfStorageOrIds : Obligations.AllocFaultsOnlyForWantOfStorageOrIds := fun _ _ =>
  mgrAlloc_eq_none

theorem exists_mgrAlloc {m : Memory} (hstorage : m.noStorage = false)
    (hids : m.free ≠ [] ∨ m.table.length < Config.maxSegments) (len : Word) : ∃ p, mgrAlloc m len = some p := by
  refine Option.ne_none_iff_exists'.1 fun hnone => ?_
  obtain hno | ⟨hfree, hlen⟩ := mgrAlloc_eq_none.1 hnone
  · simp [hno] at hstorage
  · exact hids.elim (fun h => h hfree) fun h => absurd h (Nat.not_lt.2 hlen)

/-- Every word of a fresh segment reads 0. -/
theorem mgrRead_freshSegment {m : Memory} {id len off : Word} (h : segmentAt m id = some (freshSegment len))
    (hoff : off.toNat < len.toNat) : mgrRead m id off = some 0 :=
  mgrRead_eq_some.2 ⟨_, h, hoff, rfl⟩

/-- The completion of an instruction that leaves the manager's new memory and one register written. -/
theorem exists_next_of_complete_setMem_setReg {i : Instr} {s : State} {m : Memory} {a : RegIdx} {v : Word}
    (h : exec i s = complete ((s.setMem m).setReg a v)) :
    ∃ t, exec i s = .next t ∧ t.reg a = v ∧ t.mem = m ∧ keepsOtherRegs a s t ∧ advances s t ∧ t.console = s.console :=
  ⟨_, h, reg_setReg_same _ _ _, rfl, fun _ hr => reg_setReg_other (s.setMem m) a v hr, ⟨rfl, rfl⟩, rfl⟩

/-- Settles O16: MAP completes where ALLOC is answered, with the answered id in `x[B]`. -/
theorem mapMakesAFreshZeroSegment : Obligations.MapMakesAFreshZeroSegment := by
  intro b c s
  refine ⟨encodedBC_map b c, fun hwf hstorage hids => ?_, fun hfault => stopsWith_of_raiseFatal (exec_map_fault hfault)⟩
  obtain ⟨p, hp⟩ := exists_mgrAlloc hstorage hids (s.reg c)
  obtain ⟨hid, hne, hinactive, hseg, hfree, hno⟩ := segmentAt_mgrAlloc hwf hp
  have hnew : segmentAt p.2 p.1 = some (freshSegment (s.reg c)) := by rw [hseg, if_pos rfl]
  have hother : ∀ j, j ≠ p.1 → segmentAt p.2 j = segmentAt s.mem j := fun j hj => by rw [hseg, if_neg hj]
  obtain ⟨t, ht, hreg, hmem, hframe⟩ := exists_next_of_complete_setMem_setReg (exec_map_ok (b := b) hp)
  rw [← hreg] at hid hne hinactive hnew hother
  rw [← hmem] at hnew hother hfree hno
  exact ⟨t, ht, hid, hne, hinactive, ⟨_, hnew, rfl⟩, fun _ hoff => mgrRead_freshSegment hnew hoff,
    fun j hj => ⟨hother j hj, mgrRead_of_segmentAt (hother j hj)⟩, hfree, hno, hframe⟩

/-- A MAP that did not stop has had its ALLOC answered. -/
theorem exec_map_running {b c : RegIdx} {s t : State} (h : exec (.map b c) s = .next t) (hr : t.run = .running) :
    ∃ p, mgrAlloc s.mem (s.reg c) = some p ∧ t.mem = p.2 ∧ t.reg b = p.1 := by
  cases e : mgrAlloc s.mem (s.reg c) with
  | none =>
    rw [exec_map_fault e] at h
    cases h
    simp at hr
  | some p =>
    rw [exec_map_ok e] at h
    cases h
    exact ⟨p, rfl, rfl, reg_setReg_same _ _ _⟩

/-- UNMAP of an active id that is not 0 frees it. -/
theorem exec_unmap_active {c : RegIdx} {s t : State} (hne : s.reg c ≠ 0) (hactive : segmentAt s.mem (s.reg c) ≠ none)
    (h : exec (.unmap c) s = .next t) : mgrFree s.mem (s.reg c) = some t.mem := by
  cases e : mgrFree s.mem (s.reg c) with
  | none => exact absurd (mgrFree_eq_none.1 e) (not_or.2 ⟨hne, hactive⟩)
  | some m =>
    rw [exec_unmap_ok e] at h
    cases h
    rfl

/-- Settles O41: a freed id is on top of the pool, and an active one is not given out. -/
theorem mapUnmapMapReturnsTheSameId : Obligations.MapUnmapMapReturnsTheSameId := by
  intro b b' c d s s1 s2 s3 s2' hwf h1 hr1 hr
  obtain ⟨p, hp, hm1, hreg1⟩ := exec_map_running h1 (hr1.trans hr)
  obtain ⟨-, hne, -, hseg, -, -⟩ := segmentAt_mgrAlloc hwf hp
  have hwf1 : s1.mem.wf := hm1 ▸ wf_mgrAlloc hwf hp
  have hactive : segmentAt s1.mem (s1.reg b) ≠ none := by simp [hm1, hreg1, hseg]
  constructor
  · intro h2 h3 hr3
    have hfree := exec_unmap_active (by rwa [hreg1]) hactive h2
    obtain ⟨p', hp', -, hreg3⟩ := exec_map_running h3 hr3
    obtain ⟨hid, -⟩ := segmentAt_mgrAlloc (wf_mgrFree hwf1 hfree) hp'
    rw [mgrFree_free hfree, List.headD_cons] at hid
    rw [hreg3]
    exact BitVec.eq_of_toNat_eq hid
  · intro h2 hr2 heq
    obtain ⟨p', hp', -, hreg2⟩ := exec_map_running h2 hr2
    obtain ⟨-, -, hinactive, -⟩ := segmentAt_mgrAlloc hwf1 hp'
    rw [← hreg2, heq] at hinactive
    exact hactive hinactive

end Sys2Proof.Machine
end

/-! SUPPORT. The statements about what the host sees: STATUS (10_state.md R29), the program file (20_memory.md R67, R68)
and the result of a finished run (43_control.md R173). -/

section
namespace Sys2Proof.Machine

/-! ### STATUS -/

theorem stateField_le (run : RunState) : stateField run ≤ 2 := by cases run <;> simp [stateField]

theorem causeField_le (run : RunState) : causeField run ≤ 5 := by
  cases run with
  | running | halted => decide
  | stopped cause => cases cause <;> decide

theorem causeField_ne_zero_iff (run : RunState) : causeField run ≠ 0 ↔ stateField run = 2 := by
  cases run with
  | running | halted => decide
  | stopped cause => cases cause <;> decide

theorem toNat_statusWord (run : RunState) : (statusWord run).toNat = causeField run * 4 + stateField run := by
  have := stateField_le run
  have := causeField_le run
  exact Nat.mod_eq_of_lt (by omega)

/-- Settles O47: the fields do not overlap, and the cause is 0 unless stopped. -/
theorem statusRegisterFields : Obligations.StatusRegisterFields := by
  refine ⟨rfl, rfl, rfl, rfl, rfl, rfl, rfl, fun run => ?_⟩
  have hstate := stateField_le run
  have hcause := causeField_le run
  have hiff := causeField_ne_zero_iff run
  rw [toNat_statusWord]
  omega

/-! ### The program file -/

theorem toNat_wordOfBytes (b0 b1 b2 b3 : Byte) :
    (wordOfBytes b0 b1 b2 b3).toNat = b0.toNat * 2 ^ 24 + b1.toNat * 2 ^ 16 + b2.toNat * 2 ^ 8 + b3.toNat := by
  have := b0.isLt; have := b1.isLt; have := b2.isLt; have := b3.isLt
  rw [wordOfBytes, BitVec.toNat_ofNat, Nat.mod_eq_of_lt (by omega)]

/-- The four bytes at 4n of a file are the word, most significant first. -/
def BigEndianAt (file : List Byte) (n : Nat) (w : Word) : Prop :=
  ∃ b0 b1 b2 b3 : Byte, file[4 * n]? = some b0 ∧ file[4 * n + 1]? = some b1 ∧ file[4 * n + 2]? = some b2 ∧
    file[4 * n + 3]? = some b3 ∧ w.toNat = b0.toNat * 2 ^ 24 + b1.toNat * 2 ^ 16 + b2.toNat * 2 ^ 8 + b3.toNat

theorem bigEndianAt_zero (b0 b1 b2 b3 : Byte) (rest : List Byte) :
    BigEndianAt (b0 :: b1 :: b2 :: b3 :: rest) 0 (wordOfBytes b0 b1 b2 b3) :=
  ⟨b0, b1, b2, b3, rfl, rfl, rfl, rfl, toNat_wordOfBytes b0 b1 b2 b3⟩

/-- Four more bytes in front move every word up by one. -/
theorem BigEndianAt.succ {rest : List Byte} {n : Nat} {w : Word} (h : BigEndianAt rest n w) (b0 b1 b2 b3 : Byte) :
    BigEndianAt (b0 :: b1 :: b2 :: b3 :: rest) (n + 1) w := h

/-- Group by group: the first four bytes are word 0, the rest gives the words after it. -/
theorem wordsOfFile_ok {file : List Byte} (h : file.length % 4 = 0) :
    ∃ prog, wordsOfFile file = .ok prog ∧ prog.length = file.length / 4 ∧
      ∀ n w, prog[n]? = some w → BigEndianAt file n w := by
  induction file using wordsOfFile.induct with
  | case1 => exact ⟨[], rfl, rfl, by simp⟩
  | case2 b0 b1 b2 b3 rest _ _ ih | case3 b0 b1 b2 b3 rest _ _ ih =>
    simp only [List.length_cons] at h ⊢
    obtain ⟨prog, hprog, hlen, hword⟩ := ih (by omega)
    refine ⟨wordOfBytes b0 b1 b2 b3 :: prog, by simp [wordsOfFile, hprog], by simp only [List.length_cons]; omega, ?_⟩
    intro n w hn
    cases n with
    | zero =>
      obtain rfl : wordOfBytes b0 b1 b2 b3 = w := Option.some.inj hn
      exact bigEndianAt_zero b0 b1 b2 b3 rest
    | succ n => exact (hword n w hn).succ b0 b1 b2 b3
  | case4 | case5 | case6 => simp at h

theorem wordsOfFile_truncated {file : List Byte} (h : file.length % 4 ≠ 0) :
    wordsOfFile file = .error .truncatedWord := by
  induction file using wordsOfFile.induct with
  | case1 => exact absurd rfl h
  | case2 b0 b1 b2 b3 rest _ _ ih | case3 b0 b1 b2 b3 rest _ _ ih =>
    simp only [List.length_cons] at h
    have hrest := ih (by omega)
    simp [wordsOfFile, hrest]
  | case4 | case5 | case6 => rfl

/-- Settles O49: by the length, whole groups or a truncated one. -/
theorem programFileIsBigEndian : Obligations.ProgramFileIsBigEndian := fun _ =>
  ⟨wordsOfFile_ok, wordsOfFile_truncated⟩

/-! ### The result -/

theorem exists_exitStatus {run : RunState} (h : run ≠ .running) : ∃ code, exitStatus run = some code := by
  cases run with
  | running => exact absurd rfl h
  | halted => exact ⟨_, rfl⟩
  | stopped cause => cases cause <;> exact ⟨_, rfl⟩

theorem ended_iff {run : RunState} : ended run = true ↔ run ≠ .running := by cases run <;> simp [ended]

/-- A finished run has the pair of its run state and the bytes emitted (R173). -/
theorem runResult_ended {s : State} (h : s.run ≠ .running) :
    runResult s = some { run := s.run, output := s.console.output } :=
  if_pos (ended_iff.2 h)

theorem statusPort_segments_ended {s : State} (h : s.run ≠ .running) : (statusPort s).segments = some s.mem.table :=
  if_pos (ended_iff.2 h)

/-- The host reads the segments as the manager does: READ looks at the table alone. -/
theorem viewedWord_ended {s : State} (h : s.run ≠ .running) (id off : Word) :
    viewedWord (statusPort s) id off = mgrRead s.mem id off := by
  rw [viewedWord, statusPort_segments_ended h]
  rfl

/-- Settles O50: the steps after the end change nothing, and the end shows the result, the status and the segments. -/
theorem resultOfAFinishedRun : Obligations.ResultOfAFinishedRun := by
  intro s
  refine ⟨fun hr => ?_, fun hr k t h => ?_⟩
  · simp [collect, runResult, statusPort, hr, ended]
  · rw [run_ended hr k] at h
    cases h
    obtain ⟨code, hcode⟩ := exists_exitStatus hr
    exact ⟨runResult_ended hr, ⟨code, hcode, by simp [collect, runResult_ended hr, hcode]⟩, rfl, rfl, rfl,
      viewedWord_ended hr⟩

end Sys2Proof.Machine
end
